-- ==== Sys2Proof/Word.lean ====
section
/-! DEFINITION. The two word types of the block (R7): a limb of 64 bits, and the 128-bit value that every operand register
and context register holds. Wider values (the 256-bit dividend, the 257-bit Montgomery sum) are exact natural numbers. -/

namespace Sys2Proof

/-- One 64-bit word of the host data path and of a register (R7, R9). -/
abbrev Limb := BitVec 64

/-- A 128-bit unsigned value (R30). -/
abbrev Word128 := BitVec 128

end Sys2Proof
end

