-- ==== Sys2Proof/Config.lean ====
section
/-! DEFINITION. The open parameter BASE of the spec (spec/92_eei_decisions.md, "Open parameters"), opaque, so no proof can use a
value of it. The other open parameter, LATENCY, is the place of each completion in the order of events, which State holds as
data (`State.events`, log entry 2). -/

namespace Sys2Proof.Config

/-- Which 0x200-byte block of the host's address space the platform gives the window (R10, log entry 7). -/
opaque baseIndex : Nat

/-- BASE, a multiple of 0x200 (R10). -/
def base : Nat := 0x200 * baseIndex

end Sys2Proof.Config
end

