-- ==== Sys2Proof/Syntax.lean ====
section
/-! DEFINITION. The commands of the block: one constructor per row of the opcode map (R116). -/

namespace Sys2Proof

/-- An operand register number, X0..X15 (R8, R111). -/
abbrev Reg := Fin 16

/-- A command with its register fields (R111, R116, R120). A field that names a pair names its even register; that it is
even is `Instr.wellFormed`'s business (R114). -/
inductive Instr where
  | nop
  | add (rd rs1 rs2 : Reg)
  | sub (rd rs1 rs2 : Reg)
  | mul (rd rs1 rs2 : Reg)
  | eq (rs1 rs2 : Reg)
  | iszero (rs1 : Reg)
  | isone (rs1 : Reg)
  | rem (rd rs1 : Reg)
  | divrem (rd rd2 rs1 : Reg)
  | addm (rd rs1 rs2 : Reg)
  | subm (rd rs1 rs2 : Reg)
  | mulm (rd rs1 rs2 : Reg)
  | inv (rd rs1 : Reg)
  | minit
  | tomont (rd rs1 : Reg)
  | frommont (rd rs1 : Reg)
  | mmul (rd rs1 rs2 : Reg)
  | madd (rd rs1 rs2 : Reg)
  | padd (rd rs1 rs2 : Reg)
  | pdbl (rd rs1 : Reg)
  deriving DecidableEq, Repr

/-- The mnemonic of R116. -/
def Instr.mnemonic : Instr → String
  | .nop => "NOP"
  | .add .. => "ADD"
  | .sub .. => "SUB"
  | .mul .. => "MUL"
  | .eq .. => "EQ"
  | .iszero .. => "ISZERO"
  | .isone .. => "ISONE"
  | .rem .. => "REM"
  | .divrem .. => "DIVREM"
  | .addm .. => "ADDM"
  | .subm .. => "SUBM"
  | .mulm .. => "MULM"
  | .inv .. => "INV"
  | .minit => "MINIT"
  | .tomont .. => "TOMONT"
  | .frommont .. => "FROMMONT"
  | .mmul .. => "MMUL"
  | .madd .. => "MADD"
  | .padd .. => "PADD"
  | .pdbl .. => "PDBL"

end Sys2Proof
end

