-- ==== Sys2Proof/WellFormed.lean ====
section
/-! DEFINITION. Which commands are well formed: every pair field even (R114), and DIVREM's destinations different (R115).
The other operand checks (RSV and unused fields, R113) concern bits that a term of `Instr` does not have; the decoder makes
them. -/

namespace Sys2Proof

/-- A field that names a pair must hold an even register number (R114). -/
def Reg.isEven (r : Reg) : Bool := r.val % 2 == 0

/-- The checks of R114 and R115. -/
def Instr.wellFormed : Instr → Bool
  | .nop | .minit => true
  | .add .. | .sub .. | .addm .. | .subm .. | .mulm .. | .mmul .. | .madd .. => true
  | .eq .. | .iszero .. | .isone .. => true
  | .inv .. | .tomont .. | .frommont .. => true
  | .mul rd _ _ => rd.isEven
  | .rem _ rs1 => rs1.isEven
  | .divrem rd rd2 rs1 => rs1.isEven && rd != rd2
  | .padd rd rs1 rs2 => rd.isEven && rs1.isEven && rs2.isEven
  | .pdbl rd rs1 => rd.isEven && rs1.isEven

end Sys2Proof
end

