-- ==== Sys2Proof/Decode.lean ====
section
/-! DEFINITION. The command decoder, total on 64-bit words (R117), and after it the encoder and the opcode map, each written
from the tables of spec/30_encoding.md on its own. -/

namespace Sys2Proof

/-- Why an accepted word is no command (R117, R118). -/
inductive Illegal where
  /-- OPCODE is not in the opcode map. -/
  | opcode
  /-- OPCODE is in the map, and a check of R113, R114 or R115 fails. -/
  | operand
  deriving DecidableEq, Repr

/-! ### The fields of CMD64 (R111), read with R16's `v[hi:lo] = floor(v / 2^lo) mod 2^(hi-lo+1)` -/

/-- OPCODE, bits 7:0. -/
def opcodeField (w : Limb) : Nat := w.toNat % 2 ^ 8

/-- A 4-bit register field whose lowest bit is `lo`. -/
def regField (w : Limb) (lo : Nat) : Reg := ⟨w.toNat / 2 ^ lo % 2 ^ 4, Nat.mod_lt _ (by decide)⟩

/-- RD, bits 11:8. -/
def rdField (w : Limb) : Reg := regField w 8

/-- RS1, bits 15:12. -/
def rs1Field (w : Limb) : Reg := regField w 12

/-- RS2, bits 19:16. -/
def rs2Field (w : Limb) : Reg := regField w 16

/-- RD2, bits 23:20. -/
def rd2Field (w : Limb) : Reg := regField w 20

/-- RSV, bits 63:24. -/
def rsvField (w : Limb) : Nat := w.toNat / 2 ^ 24

/-- The operand checks of a word whose OPCODE is in the map: RSV and every field marked `-` are 0 (R113), and the command is
well formed (R114, R115). -/
def checkOperands (w : Limb) (unused : List Reg) (i : Instr) : Except Illegal Instr :=
  if rsvField w == 0 && unused.all (· == 0) && i.wellFormed then .ok i else .error .operand

/-- Decoding (R116–R118, R142); the verdict depends on the word alone. -/
def decode (w : Limb) : Except Illegal Instr :=
  let rd := rdField w
  let rs1 := rs1Field w
  let rs2 := rs2Field w
  let rd2 := rd2Field w
  match opcodeField w with
  | 0x00 => checkOperands w [rd, rs1, rs2, rd2] .nop
  | 0x01 => checkOperands w [rd2] (.add rd rs1 rs2)
  | 0x02 => checkOperands w [rd2] (.sub rd rs1 rs2)
  | 0x03 => checkOperands w [rd2] (.mul rd rs1 rs2)
  | 0x04 => checkOperands w [rd, rd2] (.eq rs1 rs2)
  | 0x05 => checkOperands w [rd, rs2, rd2] (.iszero rs1)
  | 0x06 => checkOperands w [rd, rs2, rd2] (.isone rs1)
  | 0x10 => checkOperands w [rs2, rd2] (.rem rd rs1)
  | 0x11 => checkOperands w [rs2] (.divrem rd rd2 rs1)
  | 0x20 => checkOperands w [rd2] (.addm rd rs1 rs2)
  | 0x21 => checkOperands w [rd2] (.subm rd rs1 rs2)
  | 0x22 => checkOperands w [rd2] (.mulm rd rs1 rs2)
  | 0x28 => checkOperands w [rs2, rd2] (.inv rd rs1)
  | 0x30 => checkOperands w [rd, rs1, rs2, rd2] .minit
  | 0x31 => checkOperands w [rs2, rd2] (.tomont rd rs1)
  | 0x32 => checkOperands w [rs2, rd2] (.frommont rd rs1)
  | 0x33 => checkOperands w [rd2] (.mmul rd rs1 rs2)
  | 0x34 => checkOperands w [rd2] (.madd rd rs1 rs2)
  | 0x40 => checkOperands w [rd2] (.padd rd rs1 rs2)
  | 0x41 => checkOperands w [rs2, rd2] (.pdbl rd rs1)
  | _ => .error .opcode

/-- The decoder on an instruction's bits as spec/opcode_table.json numbers them: every command is one 64-bit word (R110), and
the bits from `nbits` up are 0. -/
def decodeTableWord (nbits w : Nat) : Option Instr :=
  match decode (BitVec.ofNat 64 (w % 2 ^ nbits)) with
  | .ok i => some i
  | .error _ => none

/-! ### The encoder (R120) -/

/-- `OPCODE | RD<<8 | RS1<<12 | RS2<<16 | RD2<<20` (R120), with RSV = 0. -/
def packWord (opcode : Nat) (rd rs1 rs2 rd2 : Reg) : Limb :=
  BitVec.ofNat 64 (opcode + rd.val * 2 ^ 8 + rs1.val * 2 ^ 12 + rs2.val * 2 ^ 16 + rd2.val * 2 ^ 20)

/-- The word of a command (R116, R120); unused fields are 0 (R113). -/
def encode : Instr → Limb
  | .nop => packWord 0x00 0 0 0 0
  | .add rd rs1 rs2 => packWord 0x01 rd rs1 rs2 0
  | .sub rd rs1 rs2 => packWord 0x02 rd rs1 rs2 0
  | .mul rd rs1 rs2 => packWord 0x03 rd rs1 rs2 0
  | .eq rs1 rs2 => packWord 0x04 0 rs1 rs2 0
  | .iszero rs1 => packWord 0x05 0 rs1 0 0
  | .isone rs1 => packWord 0x06 0 rs1 0 0
  | .rem rd rs1 => packWord 0x10 rd rs1 0 0
  | .divrem rd rd2 rs1 => packWord 0x11 rd rs1 0 rd2
  | .addm rd rs1 rs2 => packWord 0x20 rd rs1 rs2 0
  | .subm rd rs1 rs2 => packWord 0x21 rd rs1 rs2 0
  | .mulm rd rs1 rs2 => packWord 0x22 rd rs1 rs2 0
  | .inv rd rs1 => packWord 0x28 rd rs1 0 0
  | .minit => packWord 0x30 0 0 0 0
  | .tomont rd rs1 => packWord 0x31 rd rs1 0 0
  | .frommont rd rs1 => packWord 0x32 rd rs1 0 0
  | .mmul rd rs1 rs2 => packWord 0x33 rd rs1 rs2 0
  | .madd rd rs1 rs2 => packWord 0x34 rd rs1 rs2 0
  | .padd rd rs1 rs2 => packWord 0x40 rd rs1 rs2 0
  | .pdbl rd rs1 => packWord 0x41 rd rs1 0 0

/-! ### The opcode map (R116) -/

/-- One row of the opcode map: a word `w` is the command when `w AND mask = match`. -/
structure OpcodeRow where
  mnemonic : String
  pattern : Limb
  mask : Limb
  deriving DecidableEq, Repr

/-- The match and mask columns of R116, row by row. -/
def opcodeMap : List OpcodeRow :=
  [ ⟨"NOP", 0x0000000000000000, 0xffffffffffffffff⟩,
    ⟨"ADD", 0x0000000000000001, 0xfffffffffff000ff⟩,
    ⟨"SUB", 0x0000000000000002, 0xfffffffffff000ff⟩,
    ⟨"MUL", 0x0000000000000003, 0xfffffffffff001ff⟩,
    ⟨"EQ", 0x0000000000000004, 0xfffffffffff00fff⟩,
    ⟨"ISZERO", 0x0000000000000005, 0xffffffffffff0fff⟩,
    ⟨"ISONE", 0x0000000000000006, 0xffffffffffff0fff⟩,
    ⟨"REM", 0x0000000000000010, 0xffffffffffff10ff⟩,
    ⟨"DIVREM", 0x0000000000000011, 0xffffffffff0f10ff⟩,
    ⟨"ADDM", 0x0000000000000020, 0xfffffffffff000ff⟩,
    ⟨"SUBM", 0x0000000000000021, 0xfffffffffff000ff⟩,
    ⟨"MULM", 0x0000000000000022, 0xfffffffffff000ff⟩,
    ⟨"INV", 0x0000000000000028, 0xffffffffffff00ff⟩,
    ⟨"MINIT", 0x0000000000000030, 0xffffffffffffffff⟩,
    ⟨"TOMONT", 0x0000000000000031, 0xffffffffffff00ff⟩,
    ⟨"FROMMONT", 0x0000000000000032, 0xffffffffffff00ff⟩,
    ⟨"MMUL", 0x0000000000000033, 0xfffffffffff000ff⟩,
    ⟨"MADD", 0x0000000000000034, 0xfffffffffff000ff⟩,
    ⟨"PADD", 0x0000000000000040, 0xfffffffffff111ff⟩,
    ⟨"PDBL", 0x0000000000000041, 0xffffffffffff11ff⟩ ]

end Sys2Proof
end

