-- ==== Sys2Proof/Machine/State.lean ====
section
/-! DEFINITION. The block's state (spec/10_state.md) as plain data, the events that reach it, and its value after reset. -/

namespace Sys2Proof.Machine

/-! ### Stops -/

/-- Why the machine stops with a fault. It never does: every accepted command completes (R148), and every host access is
answered (R87, R88), so this type has no constructor. -/
inductive Fault where
  deriving DecidableEq, Repr

/-- Why a step has no meaning. -/
inductive Refusal where
  /-- Raised by exec for a command that has no meaning yet; safe (the model stops where the block goes on). No arm raises it. -/
  | notModelled (mnemonic : String)
  deriving DecidableEq, Repr

/-! ### Command errors and results -/

/-- The error codes a command can complete with (R320). -/
inductive ErrorCode where
  | illegalOpcode
  | illegalOperand
  | ctxUninit
  | ctxReinit
  | modNotNormalized
  | modEven
  | operandRange
  | notInvertible
  | pointDomain
  deriving DecidableEq, Repr

/-- The context constants a MINIT completion writes (R262). -/
structure CtxConsts where
  rc : Word128
  r2 : Word128
  v : Word128
  deriving DecidableEq, Repr

/-- What a command that passes its checks does at completion: `Ok(writes, flag, ctx)` of R146. -/
structure Effect where
  writes : List (Reg × Word128)
  flag : Bool
  ctx : Option CtxConsts
  deriving DecidableEq, Repr

/-- A command's result: one error code or one effect (R145, R146). -/
abbrev Result := Except ErrorCode Effect

/-! ### The host's side of the interface -/

/-- The widths an access on the host's bus can have (R81). -/
inductive Width where
  | w8
  | w16
  | w32
  | w64
  | w128
  | burst
  deriving DecidableEq, Repr

/-- The events of the one total order of R93. -/
inductive Event where
  /-- `MemRead` at an offset from BASE (R19). -/
  | read (width : Width) (off : Nat)
  /-- `MemWrite` at an offset from BASE (R19). -/
  | write (width : Width) (off : Nat) (data : Limb)
  /-- A pulse of the reset input (R350, log entry 6). -/
  | resetPulse
  /-- The in-flight command's LATENCY has passed (R12): its completion takes this place in the order. With nothing in flight no
  completion is enabled (R149), and the event passes. -/
  | completion
  deriving DecidableEq, Repr

/-- The bus response of an access (R19). -/
inductive Resp where
  | okay
  | error
  deriving DecidableEq, Repr

/-- What the block answers an access with: the response, and the data of a read (R19, R88). -/
inductive Answer where
  | read (resp : Resp) (data : Limb)
  | write (resp : Resp)
  deriving DecidableEq, Repr

/-! ### The state -/

/-- The operand values the engine takes at acceptance (R143): X[rs1], its pair partner, X[rs2], its pair partner, and the context
registers. -/
structure Latch where
  a : Word128
  aHi : Word128
  b : Word128
  bHi : Word128
  p : Word128
  curveA : Word128
  rc : Word128
  r2 : Word128
  v : Word128
  ctxValid : Bool
  deriving DecidableEq, Repr

/-- The in-flight command (R58): the accepted word and its latched operands. -/
structure Flight where
  word : Limb
  ops : Latch
  deriving DecidableEq, Repr

/-- Everything the spec gives the block (R30–R62), and after it the model's own two fields. BUSY, IRQ and ID are views
(`State.busy`, `State.irq`, `idWord` in Machine/Ops.lean). -/
structure State where
  /-- X0..X15 (R30). -/
  x : Vector Word128 16
  /-- The modulus P (R35). -/
  p : Word128
  /-- The curve coefficient CURVE_A (R37). -/
  curveA : Word128
  /-- RC (R38). -/
  rc : Word128
  /-- R2 (R39). -/
  r2 : Word128
  /-- V (R40). -/
  v : Word128
  /-- CTX_VALID (R41). -/
  ctxValid : Bool
  /-- CTRL.IRQ_EN (R46). -/
  irqEn : Bool
  /-- STATUS.DONE (R51). -/
  done : Bool
  /-- STATUS.ERR (R52). -/
  err : Bool
  /-- STATUS.FLAG (R53). -/
  flag : Bool
  /-- STATUS.BUSERR (R54). -/
  busErr : Bool
  /-- STATUS.ERRCODE (R52). -/
  errCode : BitVec 8
  /-- CMD, the last accepted word (R57). -/
  cmd : Limb
  /-- The in-flight command, if any (R58). -/
  flight : Option Flight
  /-- The model's own: the events still to come, in their order (R93, log entries 1 and 2). -/
  events : List Event
  /-- The model's own: the block's answer to the latest host access (log entry 5). -/
  answer : Option Answer
  deriving DecidableEq, Repr

/-- The block right after reset (R62), with no event to come. -/
def State.reset : State where
  x := Vector.replicate 16 0
  p := 0
  curveA := 0
  rc := 0
  r2 := 0
  v := 0
  ctxValid := false
  irqEn := false
  done := false
  err := false
  flag := false
  busErr := false
  errCode := 0
  cmd := 0
  flight := none
  events := []
  answer := none

end Sys2Proof.Machine
end

