-- ==== Sys2Proof/Machine/Ops.lean ====
section
/-! DEFINITION. The shared operations on the state: registers and limbs, the register window (spec/20_memory.md), the acceptance of
a command and its completion with or without an error (spec/40_execution.md, spec/60_exceptions.md), and reset. -/

namespace Sys2Proof.Machine

/-! ### Operand registers -/

/-- The odd partner of a pair's even register (R34); an odd register is its own partner. -/
def partner (r : Reg) : Reg := ⟨r.val / 2 * 2 + 1, by omega⟩

/-- `X[r]` (R18). -/
def State.reg (s : State) (r : Reg) : Word128 := s.x[r]

/-- `X[r] <- v` (R18). -/
def State.setReg (s : State) (r : Reg) (v : Word128) : State := { s with x := s.x.set r v }

/-! ### Limbs (R31, R84) -/

/-- Which limb of a 128-bit register: limb 0 is bits 63:0, limb 1 bits 127:64 (R31). -/
inductive LimbIx where
  | limb0
  | limb1
  deriving DecidableEq, Repr

/-- One limb of a 128-bit value. -/
def getLimb (v : Word128) : LimbIx → Limb
  | .limb0 => v.extractLsb' 0 64
  | .limb1 => v.extractLsb' 64 64

/-- A 128-bit value with one limb replaced and the other unchanged (R31). -/
def putLimb (v : Word128) (l : LimbIx) (d : Limb) : Word128 :=
  match l with
  | .limb0 => v.extractLsb' 64 64 ++ d
  | .limb1 => d ++ v.extractLsb' 0 64

/-! ### Status words -/

/-- STATUS.BUSY: 1 from the acceptance of a command to its completion (R48, R50). -/
def State.busy (s : State) : Bool := s.flight.isSome

/-- The interrupt output, `DONE AND IRQ_EN` at all times (R61). -/
def State.irq (s : State) : Bool := s.done && s.irqEn

/-- ID (R47). -/
def idWord : Limb := 0x4D4F4E5400071080

/-- A 1-bit field as the number 0 or 1. -/
def bit (b : Bool) : Nat := if b then 1 else 0

/-- The STATUS word (R48): BUSY, DONE, ERR, CTX_VALID, FLAG, BUSERR in bits 0..5, ERRCODE in bits 15:8, the rest 0. -/
def State.statusWord (s : State) : Limb :=
  BitVec.ofNat 64 (bit s.busy + bit s.done * 2 + bit s.err * 4 + bit s.ctxValid * 8 + bit s.flag * 16 + bit s.busErr * 32
    + s.errCode.toNat * 2 ^ 8)

/-- The CTRL word as it is read: `IRQ_EN << 1` (R46, R87). -/
def State.ctrlWord (s : State) : Limb := BitVec.ofNat 64 (bit s.irqEn * 2)

/-! ### The register window (R85) -/

/-- A register of the window; a 128-bit register is two of them (R84). -/
inductive WindowReg where
  | id
  | ctrl
  | status
  | cmd
  | p (l : LimbIx)
  | curveA (l : LimbIx)
  | rc (l : LimbIx)
  | r2 (l : LimbIx)
  | v (l : LimbIx)
  | x (r : Reg) (l : LimbIx)
  deriving DecidableEq, Repr

/-- The address map (R85): the register at an offset that is a multiple of 8, none where the map says reserved or at or above
0x200. -/
def registerAt (off : Nat) : Option WindowReg :=
  match off with
  | 0x000 => some .id
  | 0x008 => some .ctrl
  | 0x010 => some .status
  | 0x018 => some .cmd
  | 0x080 => some (.p .limb0)
  | 0x088 => some (.p .limb1)
  | 0x090 => some (.curveA .limb0)
  | 0x098 => some (.curveA .limb1)
  | 0x0A0 => some (.rc .limb0)
  | 0x0A8 => some (.rc .limb1)
  | 0x0B0 => some (.r2 .limb0)
  | 0x0B8 => some (.r2 .limb1)
  | 0x0C0 => some (.v .limb0)
  | 0x0C8 => some (.v .limb1)
  | off =>
    if off < 0x100 then none
    else if h : off < 0x200 then
      some (.x ⟨(off - 0x100) / 16, by omega⟩ (if off % 16 = 0 then .limb0 else .limb1))
    else none

/-- The register an access reaches: 64 bits wide (R81), naturally aligned (R82), and in the map (R85); none means ERROR. -/
def target (width : Width) (off : Nat) : Option WindowReg :=
  if width = .w64 ∧ off % 8 = 0 then registerAt off else none

/-- The word a register of the window holds (R85, R87). -/
def State.window (s : State) : WindowReg → Limb
  | .id => idWord
  | .ctrl => s.ctrlWord
  | .status => s.statusWord
  | .cmd => s.cmd
  | .p l => getLimb s.p l
  | .curveA l => getLimb s.curveA l
  | .rc l => getLimb s.rc l
  | .r2 l => getLimb s.r2 l
  | .v l => getLimb s.v l
  | .x r l => getLimb (s.reg r) l

/-! ### Acceptance (R141) -/

/-- The values the engine takes at acceptance (R143): the registers that the fields `rs1` and `rs2` name, their pair partners,
and the context registers (log entry 4). -/
def State.latch (s : State) (rs1 rs2 : Reg) : Latch where
  a := s.reg rs1
  aHi := s.reg (partner rs1)
  b := s.reg rs2
  bHi := s.reg (partner rs2)
  p := s.p
  curveA := s.curveA
  rc := s.rc
  r2 := s.r2
  v := s.v
  ctxValid := s.ctxValid

/-- Acceptance of the word `w` (R141). FLAG, CTX_VALID and every operand and context register stay. -/
def State.accept (s : State) (w : Limb) : State :=
  { s with
    cmd := w
    done := false
    err := false
    errCode := 0
    flight := some ⟨w, s.latch (rs1Field w) (rs2Field w)⟩ }

/-! ### Completion (R146) -/

/-- The number of an error code (R320). -/
def ErrorCode.value : ErrorCode → BitVec 8
  | .illegalOpcode => 0x01
  | .illegalOperand => 0x02
  | .ctxUninit => 0x03
  | .ctxReinit => 0x04
  | .modNotNormalized => 0x05
  | .modEven => 0x06
  | .operandRange => 0x07
  | .notInvertible => 0x08
  | .pointDomain => 0x09

/-- The error a word that is no command completes with (R118). -/
def illegalCode : Illegal → ErrorCode
  | .opcode => .illegalOpcode
  | .operand => .illegalOperand

/-- Completion with an error: the block's only trap (R146, R321, R326). No operand and no context register is written. -/
def State.completeError (s : State) (code : ErrorCode) : State :=
  { s with flag := false, err := true, errCode := code.value, done := true, flight := none }

/-- The register writes of a completion, `for each (i, v) in writes: X[i] <- v` (R146). -/
def State.writeRegs (s : State) (writes : List (Reg × Word128)) : State :=
  writes.foldl (fun t rv => t.setReg rv.1 rv.2) s

/-- The context write of a completion, `RC <- rc; R2 <- r2; V <- v; CTX_VALID <- 1` (R146), for a MINIT only. -/
def State.writeCtx (s : State) : Option CtxConsts → State
  | none => s
  | some c => { s with rc := c.rc, r2 := c.r2, v := c.v, ctxValid := true }

/-- Completion without an error (R146). -/
def State.completeOk (s : State) (e : Effect) : State :=
  { (s.writeRegs e.writes).writeCtx e.ctx with
    flag := e.flag, err := false, errCode := 0, done := true, flight := none }

/-- Completion (R146). -/
def State.complete (s : State) : Result → State
  | .error code => s.completeError code
  | .ok e => s.completeOk e

/-! ### Reset (R350–R352) -/

/-- Every piece of block state at its reset value (R62); an in-flight command is cancelled (R352). The model's own fields stay. -/
def State.resetBlock (s : State) : State :=
  { State.reset with events := s.events, answer := s.answer }

/-! ### Host accesses (spec/20_memory.md) -/

/-- An answer given, with nothing else changed. -/
def State.respond (s : State) (a : Answer) : State := { s with answer := some a }

/-- An access answered ERROR: no state changes except BUSERR (R54, R88). -/
def State.busError (s : State) (a : Answer) : State := { s with busErr := true, answer := some a }

/-- `MemRead` (R87, R88): OKAY with the word, or ERROR with data 0; no side effect (R89). -/
def State.hostRead (s : State) (width : Width) (off : Nat) : State :=
  match target width off with
  | some r => s.respond (.read .okay (s.window r))
  | none => s.busError (.read .error 0)

/-- A write to CTRL (R46, R351): bit 0 = 1 resets the block and the other bits are ignored; otherwise bit 1 is IRQ_EN. -/
def State.writeCtrl (s : State) (d : Limb) : State :=
  if d.getLsbD 0 then s.resetBlock else { s with irqEn := d.getLsbD 1 }

/-- A write to STATUS (R49), write one to clear: bit 1 DONE, bit 2 ERR and ERRCODE, bit 5 BUSERR. It is also how a host
acknowledges a completion (R327). -/
def State.writeStatus (s : State) (d : Limb) : State :=
  { s with
    done := s.done && !d.getLsbD 1
    err := s.err && !d.getLsbD 2
    errCode := if d.getLsbD 2 then 0 else s.errCode
    busErr := s.busErr && !d.getLsbD 5 }

/-- A write of one limb of P, which constructs a new, uninitialized context (R36). -/
def State.writeP (s : State) (l : LimbIx) (d : Limb) : State :=
  { s with p := putLimb s.p l d, rc := 0, r2 := 0, v := 0, ctxValid := false }

/-- What a write to a register of the window does if it is answered OKAY; none if it is answered ERROR: ID, RC, R2 and V are
read-only (R87), and CMD, P, CURVE_A and X refuse writes while BUSY = 1 (R90). -/
def State.writeWindow (s : State) (r : WindowReg) (d : Limb) : Option State :=
  match r with
  | .id => none
  | .rc _ => none
  | .r2 _ => none
  | .v _ => none
  | .ctrl => some (s.writeCtrl d)
  | .status => some (s.writeStatus d)
  | .cmd => if s.busy then none else some (s.accept d)
  | .p l => if s.busy then none else some (s.writeP l d)
  | .curveA l => if s.busy then none else some { s with curveA := putLimb s.curveA l d }
  | .x r l => if s.busy then none else some (s.setReg r (putLimb (s.reg r) l d))

/-- `MemWrite` (R87, R88, R90). -/
def State.hostWrite (s : State) (width : Width) (off : Nat) (d : Limb) : State :=
  match (target width off).bind (s.writeWindow · d) with
  | some t => t.respond (.write .okay)
  | none => s.busError (.write .error)

/-- A pulse of the reset input resets the block and answers nothing (R350). -/
def State.hardReset (s : State) : State := { s.resetBlock with answer := none }

/-! ### Addresses (R10, R80) -/

/-- The host's `MemRead(addr, 8)` as the block sees it: an offset from BASE. Addresses below BASE do not reach the block. -/
def memRead (addr : Nat) : Option Event :=
  if Config.base ≤ addr then some (.read .w64 (addr - Config.base)) else none

/-- The host's `MemWrite(addr, 8, d)` as the block sees it. -/
def memWrite (addr : Nat) (d : Limb) : Option Event :=
  if Config.base ≤ addr then some (.write .w64 (addr - Config.base) d) else none

/-! ### Who moves next (R93, R149) -/

/-- Whose turn it is. -/
inductive Turn where
  /-- The host's, or the reset input's: its effect is this state (a host access has been answered in it). -/
  | outside (t : State)
  /-- The engine's: it completes this in-flight command, in the state in which that event has been taken off the order. -/
  | engine (f : Flight) (t : State)
  /-- Nobody's: no completion is enabled here (R149), or nothing is left to come and the block is at rest (R151). -/
  | rest (t : State)
  deriving DecidableEq, Repr

/-- The next event of the order. A completion belongs to the in-flight command; when no event is left, a command in flight still
completes (R148, R149, log entry 2). -/
def State.turn (s : State) : Turn :=
  match s.events with
  | [] =>
    match s.flight with
    | some f => .engine f s
    | none => .rest s
  | .completion :: es =>
    match s.flight with
    | some f => .engine f { s with events := es }
    | none => .rest { s with events := es }
  | .read width off :: es => .outside (State.hostRead { s with events := es } width off)
  | .write width off d :: es => .outside (State.hostWrite { s with events := es } width off d)
  | .resetPulse :: es => .outside (State.hardReset { s with events := es })

/-- The order of events in which a command in flight completes next, before the events of `es` (log entry 3). -/
def completionNext (es : List Event) : List Event :=
  match es with
  | [] => []
  | e :: rest => .completion :: e :: rest

end Sys2Proof.Machine
end

