-- ==== Sys2Proof/Machine/Operands.lean ====
section
/-! DEFINITION. The operand forms: register, pair holding a 256-bit value, pair holding an affine point, implied context register
(R30, R34, R112), the registers each command names (R32), and the checks on operand values (R322). -/

namespace Sys2Proof

/-- The first source register of a command, 0 where it has none: the RS1 field of its word (R113, R120). -/
def Instr.src1 : Instr → Reg
  | .nop | .minit => 0
  | .iszero rs1 | .isone rs1 => rs1
  | .eq rs1 _ => rs1
  | .rem _ rs1 | .inv _ rs1 | .tomont _ rs1 | .frommont _ rs1 | .pdbl _ rs1 => rs1
  | .divrem _ _ rs1 => rs1
  | .add _ rs1 _ | .sub _ rs1 _ | .mul _ rs1 _ | .addm _ rs1 _ | .subm _ rs1 _ | .mulm _ rs1 _ => rs1
  | .mmul _ rs1 _ | .madd _ rs1 _ | .padd _ rs1 _ => rs1

/-- The second source register of a command, 0 where it has none: the RS2 field of its word (R113, R120). -/
def Instr.src2 : Instr → Reg
  | .nop | .minit => 0
  | .iszero _ | .isone _ => 0
  | .eq _ rs2 => rs2
  | .rem _ _ | .inv _ _ | .tomont _ _ | .frommont _ _ | .pdbl _ _ => 0
  | .divrem _ _ _ => 0
  | .add _ _ rs2 | .sub _ _ rs2 | .mul _ _ rs2 | .addm _ _ rs2 | .subm _ _ rs2 | .mulm _ _ rs2 => rs2
  | .mmul _ _ rs2 | .madd _ _ rs2 | .padd _ _ rs2 => rs2

/-- The operand registers a command reads: those its RS1 and RS2 fields name, with the odd partner of a source pair (R32). -/
def Instr.sources : Instr → List Reg
  | .nop | .minit => []
  | .iszero rs1 | .isone rs1 => [rs1]
  | .eq rs1 rs2 => [rs1, rs2]
  | .inv _ rs1 | .tomont _ rs1 | .frommont _ rs1 => [rs1]
  | .rem _ rs1 | .pdbl _ rs1 => [rs1, Machine.partner rs1]
  | .divrem _ _ rs1 => [rs1, Machine.partner rs1]
  | .add _ rs1 rs2 | .sub _ rs1 rs2 | .mul _ rs1 rs2 | .addm _ rs1 rs2 | .subm _ rs1 rs2 | .mulm _ rs1 rs2 => [rs1, rs2]
  | .mmul _ rs1 rs2 | .madd _ rs1 rs2 => [rs1, rs2]
  | .padd _ rs1 rs2 => [rs1, Machine.partner rs1, rs2, Machine.partner rs2]

/-- The operand registers a command may write: those its RD and RD2 fields name, with the odd partner of a destination
pair (R32). -/
def Instr.dests : Instr → List Reg
  | .nop | .minit => []
  | .iszero _ | .isone _ => []
  | .eq _ _ => []
  | .rem rd _ | .inv rd _ | .tomont rd _ | .frommont rd _ => [rd]
  | .divrem rd rd2 _ => [rd, rd2]
  | .add rd _ _ | .sub rd _ _ | .addm rd _ _ | .subm rd _ _ | .mulm rd _ _ | .mmul rd _ _ | .madd rd _ _ => [rd]
  | .mul rd _ _ | .padd rd _ _ => [rd, Machine.partner rd]
  | .pdbl rd _ => [rd, Machine.partner rd]

end Sys2Proof

namespace Sys2Proof.Machine

/-- The operand values a command's result is a function of (R143): the ones latched at acceptance. With nothing in flight there
are none, and the registers themselves are read, which R143 allows; no step runs a command so (log entry 4). -/
def State.operands (s : State) (rs1 rs2 : Reg) : Latch :=
  match s.flight with
  | some f => f.ops
  | none => s.latch rs1 rs2

/-- The 256-bit value of the first source pair, `X[rs1+1] ++ X[rs1]` (R34, R200). -/
def Latch.dividend (o : Latch) : Nat := o.aHi.toNat * 2 ^ 128 + o.a.toNat

/-- P is normalized, `P[127] = 1` (R24). -/
def Latch.normalized (o : Latch) : Bool := o.p.getLsbD 127

/-- P is odd, `P[0] = 1` (R322 step 5). -/
def Latch.oddModulus (o : Latch) : Bool := o.p.getLsbD 0

/-- A value is a residue, below P (R322 step 6). -/
def Latch.inRange (o : Latch) (v : Word128) : Bool := decide (v < o.p)

/-- The low and high halves of a value written to a destination pair, or a value written to one register (R176, R206). -/
def lowHalf (n : Nat) : Word128 := BitVec.ofNat 128 n

/-- Bits 255:128 of a value. -/
def highHalf (n : Nat) : Word128 := BitVec.ofNat 128 (n / 2 ^ 128)

/-- An affine point as two coordinates; (0, 0) is the point at infinity (R290). -/
abbrev Point := Nat × Nat

/-- The point of the first source pair: x in the even register, y in the odd one (R34). -/
def Latch.pointA (o : Latch) : Point := (o.a.toNat, o.aHi.toNat)

/-- The point of the second source pair. -/
def Latch.pointB (o : Latch) : Point := (o.b.toNat, o.bHi.toNat)

/-- The checks of R322 in their order, then the result: the first check that fails gives the error code (R144, R323). -/
def checked (checks : List (Bool × ErrorCode)) (result : Result) : Result :=
  match checks with
  | [] => result
  | (true, _) :: rest => checked rest result
  | (false, code) :: _ => .error code

end Sys2Proof.Machine
end

