-- ==== Sys2Proof/Machine/Flags.lean ====
section
/-! DEFINITION. What each command writes to FLAG (R53): the carry, borrow, overflow and test results. -/

namespace Sys2Proof.Machine

/-- Carry out of bit 127 (R172). -/
def carryFlag (a b : Word128) : Bool := decide (2 ^ 128 ≤ a.toNat + b.toNat)

/-- Borrow out of bit 127 (R174). -/
def borrowFlag (a b : Word128) : Bool := decide (a.toNat < b.toNat)

/-- EQ's test (R178). -/
def equalFlag (a b : Word128) : Bool := decide (a = b)

/-- ISZERO's test (R180). -/
def zeroFlag (a : Word128) : Bool := decide (a.toNat = 0)

/-- ISONE's test (R182). -/
def oneFlag (a : Word128) : Bool := decide (a.toNat = 1)

/-- REM's overflow: the dividend's high half is at or above P (R203, R204). -/
def overflowFlag (o : Latch) : Bool := decide (o.p.toNat ≤ o.aHi.toNat)

/-- DIVREM's overflow: bit 128 of the quotient (R206). -/
def quotientFlag (q : Nat) : Bool := q.testBit 128

/-- What every other command writes (R53). -/
def noFlag : Bool := false

end Sys2Proof.Machine
end

