-- ==== Sys2Proof/Machine/Arith.lean ====
section
/-! DEFINITION. The exact arithmetic shared by several commands: the inverse engine, the Montgomery multiplication, the modular
correction steps, and the point formulas. Values are natural numbers and integers; a result is narrowed where it is written. -/

namespace Sys2Proof.Machine

/-- `z mod p`, the value in [0, p) also for negative `z` (R17). -/
def modP (z : Int) (p : Nat) : Nat := (z % (p : Int)).toNat

/-- The recursion of R240, with fuel: coefficients `(x, y)` with `a·x + b·y = gcd(a, b)`. -/
def bezout : Nat → Nat → Nat → Int × Int
  | 0, _, _ => (0, 1)
  | fuel + 1, a, b =>
    if a = 0 then (0, 1)
    else
      let r := bezout fuel (b % a) a
      (r.2 - ((b / a : Nat) : Int) * r.1, r.1)

/-- `inv_m(d)` (R17, R242), for `d ≤ m ≤ 2^128` and `gcd(d, m) = 1`. Each level of the recursion halves the product of its two
arguments, so 257 levels are enough (log entry 12). -/
def invMod (d m : Nat) : Nat := modP (bezout 257 d m).1 m

/-- One conditional subtraction of P (R222, R264). -/
def subOnce (m p : Nat) : Nat := if p ≤ m then m - p else m

/-- The value of ADDM and MADD (R222): the exact sum with a single conditional subtraction. -/
def addmValue (a b p : Word128) : Word128 := lowHalf (subOnce (a.toNat + b.toNat) p.toNat)

/-- The value of SUBM (R224): the 128-bit difference, P added back once if it borrowed. -/
def submValue (a b p : Word128) : Word128 := if a.toNat < b.toNat then a - b + p else a - b

/-- `MontMul(a, b)` (R264) under the modulus `p` and the reduction constant `v`. -/
def montMul (a b p v : Nat) : Nat :=
  let t := a * b
  let sLow := t % 2 ^ 128 * v % 2 ^ 128
  let u := t + sLow * p
  subOnce (subOnce (u / 2 ^ 128) p) p

/-- The tangent-line doubling `Dbl(x, y)` of R292. -/
def dbl (p curveA : Nat) (a : Point) : Except ErrorCode Point :=
  if a.2 = 0 then .ok (0, 0)
  else
    let d := 2 * a.2 % p
    if Nat.gcd d p ≠ 1 then .error .notInvertible
    else
      let s := (3 * a.1 * a.1 + curveA) * invMod d p % p
      let x2 := modP ((s : Int) * s - 2 * a.1) p
      let y2 := modP ((s : Int) * (a.1 - x2) - a.2) p
      .ok (x2, y2)

/-- PDBL's point (R292): infinity doubles to infinity. -/
def doublePoint (p curveA : Nat) (a : Point) : Except ErrorCode Point :=
  if a = (0, 0) then .ok (0, 0) else dbl p curveA a

/-- The chord case of R294, for `a.x ≠ b.x`, with the group law's y coordinate. -/
def chord (p : Nat) (a b : Point) : Except ErrorCode Point :=
  let d := modP ((a.1 : Int) - b.1) p
  if Nat.gcd d p ≠ 1 then .error .notInvertible
  else
    let s := modP (((a.2 : Int) - b.2) * invMod d p) p
    let cx := modP ((s : Int) * s - a.1 - b.1) p
    let cy := modP ((s : Int) * (a.1 - cx) - a.2) p
    .ok (cx, cy)

/-- PADD's point (R294, R295), case by case in the rule's order. -/
def addPoint (p curveA : Nat) (a b : Point) : Except ErrorCode Point :=
  if a = (0, 0) then .ok b
  else if b = (0, 0) then .ok a
  else if a.1 ≠ b.1 then chord p a b
  else if (a.2 + b.2) % p = 0 then .ok (0, 0)
  else if a.2 = b.2 then dbl p curveA a
  else .error .pointDomain

end Sys2Proof.Machine
end

