-- ==== Sys2Proof/Machine/FixedWidth.lean ====
section
/-! DEFINITION. NOP (R150) and the fixed-width integer commands (spec/41_fixed_width.md). -/

namespace Sys2Proof.Machine

/-- The end of every meaning: the completion of R146 with the command's result, always a next state (R148). -/
def finish (s : State) (result : Result) : Host.Outcome State Fault Refusal := .next (s.complete result)

/-- NOP (R150). -/
def execNop (s : State) : Host.Outcome State Fault Refusal :=
  finish s (.ok ⟨[], noFlag, none⟩)

/-- ADD (R172). -/
def execAdd (rd rs1 rs2 : Reg) (s : State) : Host.Outcome State Fault Refusal :=
  let o := s.operands rs1 rs2
  finish s (.ok ⟨[(rd, lowHalf (o.a.toNat + o.b.toNat))], carryFlag o.a o.b, none⟩)

/-- SUB (R174). -/
def execSub (rd rs1 rs2 : Reg) (s : State) : Host.Outcome State Fault Refusal :=
  let o := s.operands rs1 rs2
  finish s (.ok ⟨[(rd, o.a - o.b)], borrowFlag o.a o.b, none⟩)

/-- MUL (R176). -/
def execMul (rd rs1 rs2 : Reg) (s : State) : Host.Outcome State Fault Refusal :=
  let o := s.operands rs1 rs2
  let t := o.a.toNat * o.b.toNat
  finish s (checked [((Instr.mul rd rs1 rs2).wellFormed, .illegalOperand)]
    (.ok ⟨[(rd, lowHalf t), (partner rd, highHalf t)], noFlag, none⟩))

/-- EQ (R178). -/
def execEq (rs1 rs2 : Reg) (s : State) : Host.Outcome State Fault Refusal :=
  let o := s.operands rs1 rs2
  finish s (.ok ⟨[], equalFlag o.a o.b, none⟩)

/-- ISZERO (R180). -/
def execIszero (rs1 : Reg) (s : State) : Host.Outcome State Fault Refusal :=
  let o := s.operands rs1 0
  finish s (.ok ⟨[], zeroFlag o.a, none⟩)

/-- ISONE (R182). -/
def execIsone (rs1 : Reg) (s : State) : Host.Outcome State Fault Refusal :=
  let o := s.operands rs1 0
  finish s (.ok ⟨[], oneFlag o.a, none⟩)

end Sys2Proof.Machine
end

