-- ==== Sys2Proof/Machine/Modular.lean ====
section
/-! DEFINITION. The modular adder, subtractor, multiplier (spec/43_modular.md) and inverse engine (spec/44_inverse.md). -/

namespace Sys2Proof.Machine

/-- ADDM (R222). -/
def execAddm (rd rs1 rs2 : Reg) (s : State) : Host.Outcome State Fault Refusal :=
  let o := s.operands rs1 rs2
  finish s (.ok ⟨[(rd, addmValue o.a o.b o.p)], noFlag, none⟩)

/-- SUBM (R224). -/
def execSubm (rd rs1 rs2 : Reg) (s : State) : Host.Outcome State Fault Refusal :=
  let o := s.operands rs1 rs2
  finish s (.ok ⟨[(rd, submValue o.a o.b o.p)], noFlag, none⟩)

/-- MULM (R226). -/
def execMulm (rd rs1 rs2 : Reg) (s : State) : Host.Outcome State Fault Refusal :=
  let o := s.operands rs1 rs2
  finish s (checked [(o.normalized, .modNotNormalized)]
    (.ok ⟨[(rd, lowHalf (o.a.toNat * o.b.toNat % o.p.toNat))], noFlag, none⟩))

/-- INV (R244). -/
def execInv (rd rs1 : Reg) (s : State) : Host.Outcome State Fault Refusal :=
  let o := s.operands rs1 0
  finish s (checked
    [(o.normalized, .modNotNormalized), (o.inRange o.a, .operandRange),
      (decide (Nat.gcd o.a.toNat o.p.toNat = 1), .notInvertible)]
    (.ok ⟨[(rd, lowHalf (invMod o.a.toNat o.p.toNat))], noFlag, none⟩))

end Sys2Proof.Machine
end

