-- ==== Sys2Proof/Machine/Montgomery.lean ====
section
/-! DEFINITION. The Montgomery context and multiplier (spec/45_montgomery.md). -/

namespace Sys2Proof.Machine

/-- The context constants of a modulus (R262): `RC = 2^128 − p`, `R2 = RC·RC mod p`, `V = −p^(-1) mod 2^128`. -/
def contextOf (p : Nat) : CtxConsts where
  rc := lowHalf (2 ^ 128 - p)
  r2 := lowHalf ((2 ^ 128 - p) * (2 ^ 128 - p) % p)
  v := lowHalf (2 ^ 128 - invMod p (2 ^ 128))

/-- MINIT (R262). -/
def execMinit (s : State) : Host.Outcome State Fault Refusal :=
  let o := s.operands 0 0
  finish s (checked
    [(!o.ctxValid, .ctxReinit), (o.normalized, .modNotNormalized), (o.oddModulus, .modEven)]
    (.ok ⟨[], noFlag, some (contextOf o.p.toNat)⟩))

/-- The result of a Montgomery multiplication command: CTX_VALID is checked (R261), and the value is `MontMul` (R264). -/
def montResult (rd : Reg) (o : Latch) (a b : Nat) : Result :=
  checked [(o.ctxValid, .ctxUninit)]
    (.ok ⟨[(rd, lowHalf (montMul a b o.p.toNat o.v.toNat))], noFlag, none⟩)

/-- TOMONT (R266). -/
def execTomont (rd rs1 : Reg) (s : State) : Host.Outcome State Fault Refusal :=
  let o := s.operands rs1 0
  finish s (montResult rd o o.a.toNat o.r2.toNat)

/-- FROMMONT (R268). -/
def execFrommont (rd rs1 : Reg) (s : State) : Host.Outcome State Fault Refusal :=
  let o := s.operands rs1 0
  finish s (montResult rd o o.a.toNat 1)

/-- MMUL (R264). -/
def execMmul (rd rs1 rs2 : Reg) (s : State) : Host.Outcome State Fault Refusal :=
  let o := s.operands rs1 rs2
  finish s (montResult rd o o.a.toNat o.b.toNat)

/-- MADD (R270): ADDM's value, with CTX_VALID checked. -/
def execMadd (rd rs1 rs2 : Reg) (s : State) : Host.Outcome State Fault Refusal :=
  let o := s.operands rs1 rs2
  finish s (checked [(o.ctxValid, .ctxUninit)]
    (.ok ⟨[(rd, addmValue o.a o.b o.p)], noFlag, none⟩))

end Sys2Proof.Machine
end

