-- ==== Sys2Proof/Machine/PointAlu.lean ====
section
/-! DEFINITION. The elliptic-curve point commands (spec/46_point.md). -/

namespace Sys2Proof.Machine

/-- A point written to a destination pair: x to the even register, y to its partner, FLAG 0 (R292, R294). -/
def pointResult (rd : Reg) (c : Except ErrorCode Point) : Result :=
  match c with
  | .error code => .error code
  | .ok c => .ok ⟨[(rd, lowHalf c.1), (partner rd, lowHalf c.2)], noFlag, none⟩

/-- PADD (R294). -/
def execPadd (rd rs1 rs2 : Reg) (s : State) : Host.Outcome State Fault Refusal :=
  let o := s.operands rs1 rs2
  finish s (checked
    [((Instr.padd rd rs1 rs2).wellFormed, .illegalOperand), (o.normalized, .modNotNormalized),
      (o.inRange o.a && o.inRange o.aHi && o.inRange o.b && o.inRange o.bHi && o.inRange o.curveA, .operandRange)]
    (pointResult rd (addPoint o.p.toNat o.curveA.toNat o.pointA o.pointB)))

/-- PDBL (R292). -/
def execPdbl (rd rs1 : Reg) (s : State) : Host.Outcome State Fault Refusal :=
  let o := s.operands rs1 0
  finish s (checked
    [((Instr.pdbl rd rs1).wellFormed, .illegalOperand), (o.normalized, .modNotNormalized),
      (o.inRange o.a && o.inRange o.aHi && o.inRange o.curveA, .operandRange)]
    (pointResult rd (doublePoint o.p.toNat o.curveA.toNat o.pointA)))

end Sys2Proof.Machine
end

