-- ==== Sys2Proof/Machine/Reduction.lean ====
section
/-! DEFINITION. The modular reducer's commands (spec/42_reduction.md). -/

namespace Sys2Proof.Machine

/-- REM (R204). -/
def execRem (rd rs1 : Reg) (s : State) : Host.Outcome State Fault Refusal :=
  let o := s.operands rs1 0
  finish s (checked
    [((Instr.rem rd rs1).wellFormed, .illegalOperand), (o.normalized, .modNotNormalized)]
    (.ok ⟨[(rd, lowHalf (o.dividend % o.p.toNat))], overflowFlag o, none⟩))

/-- DIVREM (R206). -/
def execDivrem (rd rd2 rs1 : Reg) (s : State) : Host.Outcome State Fault Refusal :=
  let o := s.operands rs1 0
  let q := o.dividend / o.p.toNat
  finish s (checked
    [((Instr.divrem rd rd2 rs1).wellFormed, .illegalOperand), (o.normalized, .modNotNormalized)]
    (.ok ⟨[(rd, lowHalf q), (rd2, lowHalf (o.dividend % o.p.toNat))], quotientFlag q, none⟩))

end Sys2Proof.Machine
end

