-- ==== Sys2Proof/Machine/Dispatch.lean ====
section
/-! DEFINITION. The meaning of every command: its completion (R146). -/

namespace Sys2Proof.Machine

def exec (i : Instr) (s : State) : Host.Outcome State Fault Refusal :=
  match i with
  | .nop => Sys2Proof.Machine.execNop s
  | .add rd rs1 rs2 => Sys2Proof.Machine.execAdd rd rs1 rs2 s
  | .sub rd rs1 rs2 => Sys2Proof.Machine.execSub rd rs1 rs2 s
  | .mul rd rs1 rs2 => Sys2Proof.Machine.execMul rd rs1 rs2 s
  | .eq rs1 rs2 => Sys2Proof.Machine.execEq rs1 rs2 s
  | .iszero rs1 => Sys2Proof.Machine.execIszero rs1 s
  | .isone rs1 => Sys2Proof.Machine.execIsone rs1 s
  | .rem rd rs1 => Sys2Proof.Machine.execRem rd rs1 s
  | .divrem rd rd2 rs1 => Sys2Proof.Machine.execDivrem rd rd2 rs1 s
  | .addm rd rs1 rs2 => Sys2Proof.Machine.execAddm rd rs1 rs2 s
  | .subm rd rs1 rs2 => Sys2Proof.Machine.execSubm rd rs1 rs2 s
  | .mulm rd rs1 rs2 => Sys2Proof.Machine.execMulm rd rs1 rs2 s
  | .inv rd rs1 => Sys2Proof.Machine.execInv rd rs1 s
  | .minit => Sys2Proof.Machine.execMinit s
  | .tomont rd rs1 => Sys2Proof.Machine.execTomont rd rs1 s
  | .frommont rd rs1 => Sys2Proof.Machine.execFrommont rd rs1 s
  | .mmul rd rs1 rs2 => Sys2Proof.Machine.execMmul rd rs1 rs2 s
  | .madd rd rs1 rs2 => Sys2Proof.Machine.execMadd rd rs1 rs2 s
  | .padd rd rs1 rs2 => Sys2Proof.Machine.execPadd rd rs1 rs2 s
  | .pdbl rd rs1 => Sys2Proof.Machine.execPdbl rd rs1 s

end Sys2Proof.Machine
end

