-- ==== Sys2Proof/Machine/Step.lean ====
section
/-! DEFINITION. One step of the machine: one host event, or one completion (R92, R93). -/

namespace Sys2Proof.Machine

/-- One step. On the engine's turn the in-flight word is decoded (R142) and its command completes, or the word completes with
ILLEGAL_OPCODE or ILLEGAL_OPERAND (R118). -/
def step (s : State) : Host.Outcome State Fault Refusal :=
  match s.turn with
  | .rest t => .next t
  | .outside t => .next t
  | .engine f t =>
    match decode f.word with
    | .ok i => exec i t
    | .error bad => .next (t.completeError (illegalCode bad))

/-- The state in which the word `w` (its bits from `nbits` up 0) has just been accepted and its completion comes next, so that the
very next step runs it (log entry 3). The block fetches nothing: an accepted CMD write is how a command reaches it (R45, R57). -/
def State.withFetchWord (s : State) (nbits w : Nat) : State :=
  { s.accept (BitVec.ofNat 64 (w % 2 ^ nbits)) with events := completionNext s.events }

end Sys2Proof.Machine
end

