-- ==== Sys2Proof/Safety.lean ====
section
/-! DEFINITION. The terms claims are stated in: the state a completion leaves, when a command is being served, and the invariant that
every step keeps. -/

namespace Sys2Proof.Machine

/-- `s` with `e` as the next event of the order (R93). -/
def State.before (s : State) (e : Event) : State := { s with events := e :: s.events }

/-- The events that reset the block: a pulse of the reset input (R350), and a write to CTRL with bit 0 set (R351). -/
def Event.resets : Event → Bool
  | .resetPulse => true
  | .write width off d => width == .w64 && off == 0x008 && d.getLsbD 0
  | _ => false

/-- What a completion without error does to STATUS and the in-flight command (R146); a claim adds the register writes. -/
def State.afterOk (s : State) (flag : Bool) : State :=
  { s with flag := flag, err := false, errCode := 0, done := true, flight := none }

/-- The whole effect of a completion with error `code` (R146, R321). -/
def State.afterError (s : State) (code : BitVec 8) : State :=
  { s with flag := false, err := true, errCode := code, done := true, flight := none }

/-- The in-flight command is `i`: its word stands in CMD (R57) and decodes to `i`, and its operands are latched from the registers
as they are (R143). In a state that a run reaches, this is so whenever the accepted word is `i`'s (`State.FlightInv`). -/
abbrev State.Serves (s : State) (i : Instr) : Prop :=
  s.flight = some ⟨s.cmd, s.latch (rs1Field s.cmd) (rs2Field s.cmd)⟩ ∧ decode s.cmd = .ok i

/-- The encoding part of a command's rule (R113–R118): a word with OPCODE `op` is the command `i w` when RSV is 0 and the command's
other field checks hold, and an illegal-operand word otherwise. -/
def EncodedAs (op : Nat) (checks : Limb → Prop) (i : Limb → Instr) : Prop :=
  ∀ w : Limb, opcodeField w = op →
    (rsvField w = 0 ∧ checks w → decode w = .ok (i w)) ∧ (¬ (rsvField w = 0 ∧ checks w) → decode w = .error .operand)

/-- The in-flight command is the word in CMD with the present register values latched (R96, R143), and DONE, ERR and ERRCODE stay
clear until its completion (R141, R51, R52). -/
def State.FlightInv (s : State) : Prop :=
  ∀ f, s.flight = some f →
    f = ⟨s.cmd, s.latch (rs1Field s.cmd) (rs2Field s.cmd)⟩ ∧ s.done = false ∧ s.err = false

/-- The context registers (R36, R42, R43): while CTX_VALID = 1 they are the constants of the present P, which is odd and normalized;
while it is 0 they are 0. -/
def State.CtxInv (s : State) : Prop :=
  (s.ctxValid = true →
    s.p.getLsbD 0 = true ∧ s.p.getLsbD 127 = true ∧ s.rc.toNat = 2 ^ 128 - s.p.toNat ∧
      s.r2.toNat = 2 ^ 256 % s.p.toNat ∧ s.v.toNat * s.p.toNat % 2 ^ 128 = 2 ^ 128 - 1) ∧
  (s.ctxValid = false → s.rc = 0 ∧ s.r2 = 0 ∧ s.v = 0)

/-- ERR is 1 exactly when ERRCODE is not 0 (R52), and ERRCODE is a code of R320. -/
def State.StatusInv (s : State) : Prop := (s.err = true ↔ s.errCode ≠ 0) ∧ s.errCode.toNat ≤ 9

/-- The invariant of the block: it holds after reset, and every step keeps it. -/
def State.Inv (s : State) : Prop := s.FlightInv ∧ s.CtxInv ∧ s.StatusInv

end Sys2Proof.Machine
end

