-- ==== Sys2Proof/Certificates/Slice0/Obligations.lean ====
section
/-! DEFINITION. The statements for the provers, each from numbered rules of spec/. `s.before e` is `s` with `e` the next event;
`s.Serves i` says that `i` is in flight with its operands latched from the registers; `s.afterOk` and `s.afterError` are the whole
effect of a completion on STATUS and the in-flight command; `EncodedAs` is the encoding part of a command's rule. A record update
names every field that changes: the others are the frame. -/

open Sys2Proof Sys2Proof.Machine

/-! ### Encoding and decoding -/

/-- R116, R120: decoding the word of a well-formed command gives it back, with every operand. -/
def Obligations.DecodeOfEncode : Prop :=
  ∀ i : Instr, i.wellFormed = true → decode (encode i) = .ok i

/-- R113, R116, R120: a word that decodes to a command is that command's word, so no bit of it is ignored. -/
def Obligations.EncodeOfDecode : Prop :=
  ∀ (w : Limb) (i : Instr), decode w = .ok i → encode i = w

/-- R116, R115: a word decodes to a command of a mnemonic exactly when it matches that mnemonic's row of the opcode map (and, for
DIVREM, its destinations differ). -/
def Obligations.OpcodeMapDecides : Prop :=
  ∀ (w : Limb) (m : String),
    (∃ i, decode w = .ok i ∧ i.mnemonic = m) ↔
      ∃ row ∈ opcodeMap, row.mnemonic = m ∧ w &&& row.mask = row.pattern ∧ (m = "DIVREM" → rdField w ≠ rd2Field w)

/-- R117, R118: a word is an illegal-opcode command exactly when its OPCODE is one of the reserved values R118 lists, and every other
word that is no command is an illegal-operand command. -/
def Obligations.ReservedOpcodesIllegal : Prop :=
  ∀ w : Limb, ∀ b, b = w.toNat % 256 →
    (decode w = .error .opcode ↔
      (0x07 ≤ b ∧ b ≤ 0x0F) ∨ (0x12 ≤ b ∧ b ≤ 0x1F) ∨ (0x23 ≤ b ∧ b ≤ 0x27) ∨ (0x29 ≤ b ∧ b ≤ 0x2F) ∨
      (0x35 ≤ b ∧ b ≤ 0x3F) ∨ 0x42 ≤ b) ∧
    (decode w = .error .operand ∨ decode w = .error .opcode ↔ ∀ i, decode w ≠ .ok i)

/-- The words the spec writes out for some commands of each family decode to them (the examples of R120, R150, R172, R176, R204, R206,
R226, R244, R262, R264, R292, R294). -/
def Obligations.SpecWordsDecode : Prop :=
  decode 0x0000000000000000 = .ok .nop ∧
  decode 0x0000000000021001 = .ok (.add 0 1 2) ∧
  decode 0x0000000000032003 = .ok (.mul 0 2 3) ∧
  decode 0x0000000000002010 = .ok (.rem 0 2) ∧
  decode 0x0000000000102011 = .ok (.divrem 0 1 2) ∧
  decode 0x0000000000021022 = .ok (.mulm 0 1 2) ∧
  decode 0x0000000000001028 = .ok (.inv 0 1) ∧
  decode 0x0000000000000030 = .ok .minit ∧
  decode 0x0000000000021033 = .ok (.mmul 0 1 2) ∧
  decode 0x0000000000042040 = .ok (.padd 0 2 4) ∧
  decode 0x0000000000002041 = .ok (.pdbl 0 2)

/-! ### The machine's steps -/

/-- R142, R146, R149: when a command is in flight whose word decodes to `i`, the step that completes it is `exec i`: at a completion
event, which is taken off the order, and when no event is left (that it still completes then is the model's choice, log entry 2). -/
def Obligations.StepRunsDecodedCommand : Prop :=
  ∀ (s : State) (f : Flight) (i : Instr), s.flight = some f → decode f.word = .ok i →
    step (s.before .completion) = exec i s ∧ (s.events = [] → step s = exec i s)

/-- R118: a word with a reserved OPCODE, and a word of the opcode map that is no command, are accepted like any other; they complete
with ILLEGAL_OPCODE and ILLEGAL_OPERAND, writing no operand and no context register; neither is a bus error. -/
def Obligations.IllegalWordCompletes : Prop :=
  ∀ (s : State) (w : Limb), s.flight = none →
    let b := w.toNat % 256
    let reserved := (0x07 ≤ b ∧ b ≤ 0x0F) ∨ (0x12 ≤ b ∧ b ≤ 0x1F) ∨ (0x23 ≤ b ∧ b ≤ 0x27) ∨ (0x29 ≤ b ∧ b ≤ 0x2F) ∨
      (0x35 ≤ b ∧ b ≤ 0x3F) ∨ 0x42 ≤ b
    ∃ t, step (s.before (.write .w64 0x018 w)) = .next t ∧
      t.answer = some (.write .okay) ∧ t.busy = true ∧ t.busErr = s.busErr ∧
      t.x = s.x ∧ t.p = s.p ∧ t.curveA = s.curveA ∧ t.rc = s.rc ∧ t.r2 = s.r2 ∧ t.v = s.v ∧ t.ctxValid = s.ctxValid ∧
      (reserved → step (t.before .completion) = .next (t.afterError 0x01)) ∧
      (¬ reserved → (∀ i, decode w ≠ .ok i) → step (t.before .completion) = .next (t.afterError 0x02))

/-- R141, R143: a CMD write to an idle block is answered OKAY, whatever the word; it starts the command with its operands latched,
and IRQ is low. The same write to a busy block is answered ERROR and sets BUSERR only. -/
def Obligations.CommandAccepted : Prop :=
  ∀ (s : State) (w : Limb),
    (s.flight = none →
      ∃ t, step (s.before (.write .w64 0x018 w)) = .next t ∧
        t = { s with
          cmd := w, done := false, err := false, errCode := 0, answer := some (.write .okay)
          flight := some ⟨w, ⟨s.reg (rs1Field w), s.reg (partner (rs1Field w)), s.reg (rs2Field w),
            s.reg (partner (rs2Field w)), s.p, s.curveA, s.rc, s.r2, s.v, s.ctxValid⟩⟩ } ∧
        t.irq = false) ∧
    (s.busy = true →
      step (s.before (.write .w64 0x018 w)) = .next { s with busErr := true, answer := some (.write .error) })

/-- R90: while BUSY = 1, writes of CMD, P, CURVE_A and X are refused, writes of CTRL and STATUS are answered OKAY, and a read of any
register is answered OKAY with the value it has, which no access but a reset changes for an operand or context register. -/
def Obligations.BusyAccessRules : Prop :=
  ∀ (s : State) (d : Limb), s.busy = true →
    (∀ off, off % 8 = 0 → (off = 0x018 ∨ (0x080 ≤ off ∧ off < 0x0A0) ∨ (0x100 ≤ off ∧ off < 0x200)) →
      step (s.before (.write .w64 off d)) = .next { s with busErr := true, answer := some (.write .error) }) ∧
    (∀ off, off = 0x008 ∨ off = 0x010 →
      ∃ t, step (s.before (.write .w64 off d)) = .next t ∧ t.answer = some (.write .okay)) ∧
    (∀ off r, off % 8 = 0 → registerAt off = some r →
      step (s.before (.read .w64 off)) = .next { s with answer := some (.read .okay (s.window r)) }) ∧
    (∀ e t, e ≠ .completion → e.resets = false → step (s.before e) = .next t →
      t.x = s.x ∧ t.p = s.p ∧ t.curveA = s.curveA ∧ t.rc = s.rc ∧ t.r2 = s.r2 ∧ t.v = s.v ∧ t.ctxValid = s.ctxValid ∧
        t.flight = s.flight ∧ t.cmd = s.cmd)

/-- R36: a write of either limb of P that is answered OKAY clears the context, whatever the value; limb 0 is at 0x080 and limb 1 at
0x088 (R85), and the other limb stays (R31). -/
def Obligations.WritingPClearsContext : Prop :=
  ∀ (s : State) (d : Limb), s.flight = none →
    step (s.before (.write .w64 0x080 d)) =
      .next { s with p := s.p.extractLsb' 64 64 ++ d, rc := 0, r2 := 0, v := 0, ctxValid := false,
                     answer := some (.write .okay) } ∧
    step (s.before (.write .w64 0x088 d)) =
      .next { s with p := d ++ s.p.extractLsb' 0 64, rc := 0, r2 := 0, v := 0, ctxValid := false,
                     answer := some (.write .okay) }

/-- R31, R85, R89: a write to a limb of X, P or CURVE_A in an idle block is what that word of the window then reads, and every other
word of the window reads as before, except STATUS and the context constants after a write of P. -/
def Obligations.LimbWriteChangesOneWord : Prop :=
  ∀ (s : State) (off : Nat) (r : WindowReg) (d : Limb), s.flight = none → off % 8 = 0 → registerAt off = some r →
    ((∃ l, r = .p l) ∨ (∃ l, r = .curveA l) ∨ (∃ q l, r = .x q l)) →
    ∃ t, step (s.before (.write .w64 off d)) = .next t ∧ t.answer = some (.write .okay) ∧ t.window r = d ∧
      ∀ r', r' ≠ r → (∀ l, r = .p l → r' ≠ .status ∧ ∀ l', r' ≠ .rc l' ∧ r' ≠ .r2 l' ∧ r' ≠ .v l') →
        t.window r' = s.window r'

/-- R49: a STATUS write is answered OKAY at any time, clears DONE, ERR with ERRCODE, and BUSERR by bits 1, 2 and 5, and changes
nothing else. -/
def Obligations.StatusWriteClears : Prop :=
  ∀ (s : State) (d : Limb),
    step (s.before (.write .w64 0x010 d)) = .next { s with
      done := if d.getLsbD 1 then false else s.done
      err := if d.getLsbD 2 then false else s.err
      errCode := if d.getLsbD 2 then 0 else s.errCode
      busErr := if d.getLsbD 5 then false else s.busErr
      answer := some (.write .okay) }

/-- R46: a CTRL write with bit 0 = 0 stores bit 1 in IRQ_EN and ignores the rest, also while busy; one with bit 0 = 1 is the soft
reset; CTRL reads `IRQ_EN << 1`; IRQ_EN lets DONE drive the interrupt line, and is 0 after reset. -/
def Obligations.CtrlWriteAndRead : Prop :=
  ∀ (s : State) (d : Limb),
    (d.getLsbD 0 = false →
      step (s.before (.write .w64 0x008 d)) = .next { s with irqEn := d.getLsbD 1, answer := some (.write .okay) }) ∧
    (d.getLsbD 0 = true →
      step (s.before (.write .w64 0x008 d)) =
        .next { State.reset with events := s.events, answer := some (.write .okay) }) ∧
    step (s.before (.read .w64 0x008)) = .next { s with answer := some (.read .okay (if s.irqEn then 2 else 0)) } ∧
    (s.irqEn = true → s.irq = s.done) ∧ (s.irqEn = false → s.irq = false) ∧ State.reset.irqEn = false

/-- R352: a reset, by the reset input or by CTRL, cancels an in-flight command: every piece of block state has its reset value, DONE
is 0, and no completion follows. -/
def Obligations.ResetCancelsCommand : Prop :=
  ∀ (s : State) (e : Event), e.resets = true →
    ∃ t, step (s.before e) = .next t ∧ { t with events := [], answer := none } = State.reset ∧ t.events = s.events ∧
      t.flight = none ∧ t.done = false ∧ step (t.before .completion) = .next t

/-- R85, R87, R47: what a 64-bit read answers at every readable offset of the window but STATUS, in every state. -/
def Obligations.AddressMapReads : Prop :=
  ∀ s : State,
    let reads (off : Nat) (d : Limb) : Prop :=
      step (s.before (.read .w64 off)) = .next { s with answer := some (.read .okay d) }
    let limb0 (v : Word128) : Limb := BitVec.ofNat 64 (v.toNat % 2 ^ 64)
    let limb1 (v : Word128) : Limb := BitVec.ofNat 64 (v.toNat / 2 ^ 64)
    reads 0x000 0x4D4F4E5400071080 ∧ reads 0x008 (if s.irqEn then 2 else 0) ∧ reads 0x018 s.cmd ∧
    reads 0x080 (limb0 s.p) ∧ reads 0x088 (limb1 s.p) ∧ reads 0x090 (limb0 s.curveA) ∧ reads 0x098 (limb1 s.curveA) ∧
    reads 0x0A0 (limb0 s.rc) ∧ reads 0x0A8 (limb1 s.rc) ∧ reads 0x0B0 (limb0 s.r2) ∧ reads 0x0B8 (limb1 s.r2) ∧
    reads 0x0C0 (limb0 s.v) ∧ reads 0x0C8 (limb1 s.v) ∧
    ∀ i : Reg, reads (0x100 + 16 * i) (limb0 (s.reg i)) ∧ reads (0x108 + 16 * i) (limb1 (s.reg i))

/-- R48, R55: what a STATUS read answers, bit by bit; it changes nothing. -/
def Obligations.StatusReadBits : Prop :=
  ∀ s : State, ∃ d : Limb,
    step (s.before (.read .w64 0x010)) = .next { s with answer := some (.read .okay d) } ∧
    d.getLsbD 0 = s.flight.isSome ∧ d.getLsbD 1 = s.done ∧ d.getLsbD 2 = s.err ∧ d.getLsbD 3 = s.ctxValid ∧
    d.getLsbD 4 = s.flag ∧ d.getLsbD 5 = s.busErr ∧ d.getLsbD 6 = false ∧ d.getLsbD 7 = false ∧
    d.extractLsb' 8 8 = s.errCode ∧ d.extractLsb' 16 48 = 0

/-- R88: an access of the wrong width, misaligned, to a reserved offset or outside the window, or a write to a read-only register or
one refused while busy, is answered ERROR, with data 0 for a read, and changes no state except BUSERR. -/
def Obligations.ErrorAccessSetsBuserrOnly : Prop :=
  ∀ (s : State) (width : Width) (off : Nat) (d : Limb),
    let unreachable := width ≠ .w64 ∨ off % 8 ≠ 0 ∨ (0x020 ≤ off ∧ off < 0x080) ∨ (0x0D0 ≤ off ∧ off < 0x100) ∨ 0x200 ≤ off
    let readOnly := off < 0x008 ∨ (0x0A0 ≤ off ∧ off < 0x0D0)
    let refusedWhileBusy := off = 0x018 ∨ (0x080 ≤ off ∧ off < 0x0A0) ∨ (0x100 ≤ off ∧ off < 0x200)
    (unreachable →
      step (s.before (.read width off)) = .next { s with busErr := true, answer := some (.read .error 0) }) ∧
    (unreachable ∨ readOnly ∨ (s.busy = true ∧ refusedWhileBusy) →
      step (s.before (.write width off d)) = .next { s with busErr := true, answer := some (.write .error) })

/-- R62: every piece of block state after reset, in the state the machine starts in and after every reset event. -/
def Obligations.ResetValues : Prop :=
  let values (t : State) : Prop :=
    (∀ r : Reg, t.reg r = 0) ∧ t.p = 0 ∧ t.curveA = 0 ∧ t.rc = 0 ∧ t.r2 = 0 ∧ t.v = 0 ∧ t.ctxValid = false ∧
    t.irqEn = false ∧ t.busy = false ∧ t.done = false ∧ t.err = false ∧ t.flag = false ∧ t.busErr = false ∧
    t.errCode = 0 ∧ t.cmd = 0 ∧ t.window .id = 0x4D4F4E5400071080 ∧ t.flight = none ∧ t.irq = false
  values State.reset ∧ ∀ (s : State) (e : Event), e.resets = true → ∃ t, step (s.before e) = .next t ∧ values t

/-- R145, R148: the machine never stops: every step, from every state, ends in a next state. -/
def Obligations.StepNeverStops : Prop :=
  ∀ s : State, ∃ t, step s = .next t

/-- R148, R149: whatever events are still to come, a command in flight leaves flight within as many steps as there are events, and
one; it has then completed (DONE = 1), or the block was reset. That a command still completes when no event is left is the model's
choice, its form of the fairness R149 assumes (log entry 2). -/
def Obligations.AcceptedCommandEnds : Prop :=
  ∀ s : State, s.busy = true →
    ∃ k t, k ≤ s.events.length + 1 ∧ Host.Core.run Sys2Proof.core k s = .next t ∧ t.busy = false ∧
      (t.done = true ∨ { t with events := [], answer := none } = State.reset)

/-- R50: BUSY is set by the acceptance of a command, and cleared by its completion and by a reset; nothing else writes it. -/
def Obligations.BusyTransitions : Prop :=
  ∀ s : State,
    (∀ w, s.busy = false → ∃ t, step (s.before (.write .w64 0x018 w)) = .next t ∧ t.busy = true) ∧
    (s.busy = true → ∃ t, step (s.before .completion) = .next t ∧ t.busy = false ∧ t.done = true) ∧
    (∀ e, e.resets = true → ∃ t, step (s.before e) = .next t ∧ t.busy = false) ∧
    (∀ t, step s = .next t → s.busy = false → t.busy = true → ∃ w es, s.events = .write .w64 0x018 w :: es ∧ t.cmd = w) ∧
    (∀ t, step s = .next t → s.busy = true → t.busy = false →
      (t.done = true ∧ (s.events = [] ∨ ∃ es, s.events = .completion :: es)) ∨
      ∃ e es, s.events = e :: es ∧ e.resets = true)

/-- R50, R51, R53, R41: no event but a completion or a reset writes FLAG, ends a flight, sets DONE or ERR, or sets CTX_VALID. -/
def Obligations.HostEventFrame : Prop :=
  ∀ (s t : State) (e : Event), e ≠ .completion → e.resets = false → step (s.before e) = .next t →
    t.flag = s.flag ∧ (s.busy = true → t.busy = true) ∧ (t.done = true → s.done = true) ∧ (t.err = true → s.err = true) ∧
      (t.ctxValid = true → s.ctxValid = true) ∧ t.events = s.events

/-- R41: CTX_VALID goes to 1 only by a MINIT that completes without error, and to 0 only by a reset or a write of a limb of P. -/
def Obligations.CtxValidTransitions : Prop :=
  ∀ s t : State, step s = .next t →
    (s.ctxValid = false → t.ctxValid = true →
      ∃ f, s.flight = some f ∧ decode f.word = .ok .minit ∧ t.flight = none ∧ t.done = true ∧ t.err = false) ∧
    (s.ctxValid = true → t.ctxValid = false →
      ∃ e es, s.events = e :: es ∧ (e.resets = true ∨ ∃ d, e = .write .w64 0x080 d ∨ e = .write .w64 0x088 d))

/-! ### Every command: errors, frame, inputs -/

/-- R321: a completion with an error writes no operand register, no context register and no CTX_VALID; it writes FLAG, ERR, ERRCODE,
BUSY and DONE only, with a code of R320. -/
def Obligations.ErrorCompletionIsPrecise : Prop :=
  ∀ (i : Instr) (s t : State), exec i s = .next t → t.err = true →
    ∃ code : BitVec 8, 2 ≤ code.toNat ∧ code.toNat ≤ 9 ∧ t = s.afterError code

/-- R32, R53, R61, R146: whatever command completes, DONE is 1 and nothing is in flight, so IRQ is IRQ_EN; only the registers its
destination fields name may change, only a MINIT changes the context constants, and every other word of the window but STATUS
reads as before. -/
def Obligations.CompletionFrame : Prop :=
  ∀ (i : Instr) (s t : State), exec i s = .next t →
    t.done = true ∧ t.busy = false ∧ t.irq = s.irqEn ∧ t.busErr = s.busErr ∧ t.events = s.events ∧ t.answer = s.answer ∧
      (i ≠ .minit → t.ctxValid = s.ctxValid) ∧
      ∀ r : WindowReg, r ≠ .status → (∀ q l, r = .x q l → q ∉ i.dests) →
        (i = .minit → ∀ l, r ≠ .rc l ∧ r ≠ .r2 l ∧ r ≠ .v l) → t.window r = s.window r

/-- R32, R143: a command's result depends on the registers its source fields name and on the context registers only. -/
def Obligations.ResultDependsOnNamedSources : Prop :=
  ∀ (i : Instr) (s s' t t' : State), s.Serves i → s'.Serves i → (∀ r ∈ i.sources, s.reg r = s'.reg r) →
    s.p = s'.p → s.curveA = s'.curveA → s.rc = s'.rc → s.r2 = s'.r2 → s.v = s'.v → s.ctxValid = s'.ctxValid →
    exec i s = .next t → exec i s' = .next t' →
    t.err = t'.err ∧ t.errCode = t'.errCode ∧ t.flag = t'.flag ∧ t.ctxValid = t'.ctxValid ∧
      t.rc = t'.rc ∧ t.r2 = t'.r2 ∧ t.v = t'.v ∧ (t.err = false → ∀ r ∈ i.dests, t.reg r = t'.reg r)

/-! ### NOP and the fixed-width commands -/

/-- R150: NOP is the word 0 exactly; it writes no register; FLAG is 0. -/
def Obligations.NopCompletes : Prop :=
  EncodedAs 0x00 (fun w => rdField w = 0 ∧ rs1Field w = 0 ∧ rs2Field w = 0 ∧ rd2Field w = 0) (fun _ => .nop) ∧
  (∀ w, decode w = .ok .nop ↔ w = 0) ∧
  ∀ s : State, exec .nop s = .next (s.afterOk false)

/-- R172: ADD. -/
def Obligations.AddCompletes : Prop :=
  EncodedAs 0x01 (fun w => rd2Field w = 0)
    (fun w => .add (rdField w) (rs1Field w) (rs2Field w)) ∧
  ∀ (s : State) (rd rs1 rs2 : Reg), s.Serves (.add rd rs1 rs2) →
    let sum := (s.reg rs1).toNat + (s.reg rs2).toNat
    exec (.add rd rs1 rs2) s =
      .next { s.afterOk (decide (2 ^ 128 ≤ sum)) with x := s.x.set rd (BitVec.ofNat 128 (sum % 2 ^ 128)) }

/-- R174: SUB. -/
def Obligations.SubCompletes : Prop :=
  EncodedAs 0x02 (fun w => rd2Field w = 0)
    (fun w => .sub (rdField w) (rs1Field w) (rs2Field w)) ∧
  ∀ (s : State) (rd rs1 rs2 : Reg), s.Serves (.sub rd rs1 rs2) →
    exec (.sub rd rs1 rs2) s =
      .next { s.afterOk (decide ((s.reg rs1).toNat < (s.reg rs2).toNat)) with
        x := s.x.set rd (BitVec.ofInt 128 (((s.reg rs1).toNat - (s.reg rs2).toNat : Int) % 2 ^ 128)) }

/-- R175: if ADD completes, a later SUB of the same addend from the sum gives the other addend back, with the ADD's FLAG. -/
def Obligations.SubUndoesAdd : Prop :=
  ∀ (s t s' : State) (rd rs1 rs2 re : Reg), s.Serves (.add rd rs1 rs2) → exec (.add rd rs1 rs2) s = .next t →
    s'.Serves (.sub re rd rs2) → s'.reg rd = t.reg rd → s'.reg rs2 = s.reg rs2 →
    ∃ u, exec (.sub re rd rs2) s' = .next u ∧ u.reg re = s.reg rs1 ∧ u.flag = t.flag

/-- R176, R34: MUL writes the low half of the exact product to the even register of the pair and the high half to the odd one. -/
def Obligations.MulCompletes : Prop :=
  EncodedAs 0x03 (fun w => rd2Field w = 0 ∧ (rdField w).isEven = true)
    (fun w => .mul (rdField w) (rs1Field w) (rs2Field w)) ∧
  ∀ (s : State) (rd rs1 rs2 : Reg), s.Serves (.mul rd rs1 rs2) →
    let t := (s.reg rs1).toNat * (s.reg rs2).toNat
    rd.val % 2 = 0 ∧ (partner rd).val = rd.val + 1 ∧
    exec (.mul rd rs1 rs2) s =
      .next { s.afterOk false with
        x := (s.x.set rd (BitVec.ofNat 128 (t % 2 ^ 128))).set (partner rd) (BitVec.ofNat 128 (t / 2 ^ 128)) }

/-- R178, R180, R182: the tests write FLAG and no register. -/
def Obligations.TestsComplete : Prop :=
  EncodedAs 0x04 (fun w => rdField w = 0 ∧ rd2Field w = 0) (fun w => .eq (rs1Field w) (rs2Field w)) ∧
  EncodedAs 0x05 (fun w => rdField w = 0 ∧ rs2Field w = 0 ∧ rd2Field w = 0) (fun w => .iszero (rs1Field w)) ∧
  EncodedAs 0x06 (fun w => rdField w = 0 ∧ rs2Field w = 0 ∧ rd2Field w = 0) (fun w => .isone (rs1Field w)) ∧
  ∀ (s : State) (rs1 rs2 : Reg),
    (s.Serves (.eq rs1 rs2) → exec (.eq rs1 rs2) s = .next (s.afterOk (decide (s.reg rs1 = s.reg rs2)))) ∧
    (s.Serves (.iszero rs1) → exec (.iszero rs1) s = .next (s.afterOk (decide ((s.reg rs1).toNat = 0)))) ∧
    (s.Serves (.isone rs1) → exec (.isone rs1) s = .next (s.afterOk (decide ((s.reg rs1).toNat = 1))))

/-! ### The reducer -/

/-- R204, R203: REM, and its error without a normalized P. -/
def Obligations.RemCompletes : Prop :=
  EncodedAs 0x10 (fun w => rs2Field w = 0 ∧ rd2Field w = 0 ∧ (rs1Field w).isEven = true)
    (fun w => .rem (rdField w) (rs1Field w)) ∧
  ∀ (s : State) (rd rs1 : Reg), s.Serves (.rem rd rs1) →
    let u := (s.reg (partner rs1)).toNat * 2 ^ 128 + (s.reg rs1).toNat
    (s.p.getLsbD 127 = true →
      exec (.rem rd rs1) s =
        .next { s.afterOk (decide (s.p.toNat ≤ (s.reg (partner rs1)).toNat)) with
          x := s.x.set rd (BitVec.ofNat 128 (u % s.p.toNat)) }) ∧
    (s.p.getLsbD 127 = false → exec (.rem rd rs1) s = .next (s.afterError 0x05))

/-- R206: DIVREM, and its error without a normalized P. -/
def Obligations.DivremCompletes : Prop :=
  EncodedAs 0x11 (fun w => rs2Field w = 0 ∧ (rs1Field w).isEven = true ∧ rdField w ≠ rd2Field w)
    (fun w => .divrem (rdField w) (rd2Field w) (rs1Field w)) ∧
  ∀ (s : State) (rd rd2 rs1 : Reg), s.Serves (.divrem rd rd2 rs1) →
    let u := (s.reg (partner rs1)).toNat * 2 ^ 128 + (s.reg rs1).toNat
    let q := u / s.p.toNat
    (s.p.getLsbD 127 = true →
      exec (.divrem rd rd2 rs1) s =
        .next { s.afterOk (decide (q / 2 ^ 128 = 1)) with
          x := (s.x.set rd (BitVec.ofNat 128 (q % 2 ^ 128))).set rd2 (BitVec.ofNat 128 (u % s.p.toNat)) } ∧
      q < 2 ^ 129 ∧ (q / 2 ^ 128 = 1 ↔ s.p.toNat ≤ (s.reg (partner rs1)).toNat)) ∧
    (s.p.getLsbD 127 = false → exec (.divrem rd rd2 rs1) s = .next (s.afterError 0x05))

/-- R208: the division law `u = (FLAG·2^128 + X[rd])·P + X[rd2]`, with the remainder below P, after every DIVREM that completes
without error. -/
def Obligations.DivisionLaw : Prop :=
  ∀ (s t : State) (rd rd2 rs1 : Reg), s.Serves (.divrem rd rd2 rs1) → exec (.divrem rd rd2 rs1) s = .next t → t.err = false →
    2 ^ 127 ≤ s.p.toNat ∧ (t.reg rd2).toNat < s.p.toNat ∧
    (s.reg (partner rs1)).toNat * 2 ^ 128 + (s.reg rs1).toNat =
      ((if t.flag then 1 else 0) * 2 ^ 128 + (t.reg rd).toNat) * s.p.toNat + (t.reg rd2).toNat

/-- R205: for the same pair and P, REM's result is DIVREM's remainder, and `u − q·P` when the quotient fits. -/
def Obligations.ReducerCrossCheck : Prop :=
  ∀ (s s' t t' : State) (rd rs1 q r a : Reg), s.Serves (.rem rd rs1) → s'.Serves (.divrem q r a) →
    s'.p = s.p → s'.reg a = s.reg rs1 → s'.reg (partner a) = s.reg (partner rs1) →
    exec (.rem rd rs1) s = .next t → t.err = false → exec (.divrem q r a) s' = .next t' →
    let u := (s.reg (partner rs1)).toNat * 2 ^ 128 + (s.reg rs1).toNat
    t'.err = false ∧ t.reg rd = t'.reg r ∧ t.flag = t'.flag ∧
      (s.reg (partner rs1) < s.p → (t.reg rd).toNat = u - (t'.reg q).toNat * s.p.toNat)

/-! ### Modular arithmetic -/

/-- R222: ADDM, for every input. -/
def Obligations.AddmCompletes : Prop :=
  EncodedAs 0x20 (fun w => rd2Field w = 0)
    (fun w => .addm (rdField w) (rs1Field w) (rs2Field w)) ∧
  ∀ (s : State) (rd rs1 rs2 : Reg), s.Serves (.addm rd rs1 rs2) →
    let sum := (s.reg rs1).toNat + (s.reg rs2).toNat
    exec (.addm rd rs1 rs2) s =
      .next { s.afterOk false with
        x := s.x.set rd (BitVec.ofNat 128 ((if s.p.toNat ≤ sum then sum - s.p.toNat else sum) % 2 ^ 128)) }

/-- R224: SUBM, for every input. -/
def Obligations.SubmCompletes : Prop :=
  EncodedAs 0x21 (fun w => rd2Field w = 0)
    (fun w => .subm (rdField w) (rs1Field w) (rs2Field w)) ∧
  ∀ (s : State) (rd rs1 rs2 : Reg), s.Serves (.subm rd rs1 rs2) →
    let d := s.reg rs1 - s.reg rs2
    exec (.subm rd rs1 rs2) s =
      .next { s.afterOk false with
        x := s.x.set rd (if (s.reg rs1).toNat < (s.reg rs2).toNat then d + s.p else d) }

/-- R226: MULM, and its error without a normalized P. -/
def Obligations.MulmCompletes : Prop :=
  EncodedAs 0x22 (fun w => rd2Field w = 0)
    (fun w => .mulm (rdField w) (rs1Field w) (rs2Field w)) ∧
  ∀ (s : State) (rd rs1 rs2 : Reg), s.Serves (.mulm rd rs1 rs2) →
    (s.p.getLsbD 127 = true →
      exec (.mulm rd rs1 rs2) s =
        .next { s.afterOk false with
          x := s.x.set rd (BitVec.ofNat 128 ((s.reg rs1).toNat * (s.reg rs2).toNat % s.p.toNat)) }) ∧
    (s.p.getLsbD 127 = false → exec (.mulm rd rs1 rs2) s = .next (s.afterError 0x05))

/-- R228: for residues, ADDM, SUBM (any P) and MULM (normalized P) give the sum, difference and product modulo P, a residue. -/
def Obligations.ModularClosure : Prop :=
  ∀ (s : State) (rd rs1 rs2 : Reg) (i : Instr), s.Serves i →
    (s.reg rs1).toNat < s.p.toNat → (s.reg rs2).toNat < s.p.toNat →
    i = .addm rd rs1 rs2 ∨ i = .subm rd rs1 rs2 ∨ (i = .mulm rd rs1 rs2 ∧ s.p.getLsbD 127 = true) →
    ∃ t, exec i s = .next t ∧ (t.reg rd).toNat < s.p.toNat ∧
      (i = .addm rd rs1 rs2 → (t.reg rd).toNat = ((s.reg rs1).toNat + (s.reg rs2).toNat) % s.p.toNat) ∧
      (i = .subm rd rs1 rs2 → ((t.reg rd).toNat : Int) = ((s.reg rs1).toNat - (s.reg rs2).toNat : Int) % s.p.toNat) ∧
      (i = .mulm rd rs1 rs2 → (t.reg rd).toNat = (s.reg rs1).toNat * (s.reg rs2).toNat % s.p.toNat)

/-- R244: INV, with its three errors in their order; a result is a true inverse in [1, P). -/
def Obligations.InvCompletes : Prop :=
  EncodedAs 0x28 (fun w => rs2Field w = 0 ∧ rd2Field w = 0) (fun w => .inv (rdField w) (rs1Field w)) ∧
  ∀ (s : State) (rd rs1 : Reg), s.Serves (.inv rd rs1) →
    (s.p.getLsbD 127 = false → exec (.inv rd rs1) s = .next (s.afterError 0x05)) ∧
    (s.p.getLsbD 127 = true → s.p.toNat ≤ (s.reg rs1).toNat → exec (.inv rd rs1) s = .next (s.afterError 0x07)) ∧
    (s.p.getLsbD 127 = true → (s.reg rs1).toNat < s.p.toNat →
      (Nat.gcd (s.reg rs1).toNat s.p.toNat ≠ 1 → exec (.inv rd rs1) s = .next (s.afterError 0x08)) ∧
      (Nat.gcd (s.reg rs1).toNat s.p.toNat = 1 →
        ∃ e : Word128, exec (.inv rd rs1) s = .next { s.afterOk false with x := s.x.set rd e } ∧
          0 < e.toNat ∧ e.toNat < s.p.toNat ∧ e.toNat * (s.reg rs1).toNat % s.p.toNat = 1))

/-- R245: whenever INV completes without error, MULM of the operand and the result gives 1. -/
def Obligations.InverseLaw : Prop :=
  ∀ (s t s' : State) (rd rs1 re rx ry : Reg), s.Serves (.inv rd rs1) → exec (.inv rd rs1) s = .next t → t.err = false →
    s'.Serves (.mulm re rx ry) → s'.p = s.p → s'.reg rx = s.reg rs1 → s'.reg ry = t.reg rd →
    ∃ u, exec (.mulm re rx ry) s' = .next u ∧ u.err = false ∧ u.reg re = 1

/-! ### Montgomery arithmetic -/

/-- R262: MINIT, with its three errors in their order; the constants it writes. -/
def Obligations.MinitCompletes : Prop :=
  EncodedAs 0x30 (fun w => rdField w = 0 ∧ rs1Field w = 0 ∧ rs2Field w = 0 ∧ rd2Field w = 0) (fun _ => .minit) ∧
  ∀ s : State, s.Serves .minit →
    (s.ctxValid = true → exec .minit s = .next (s.afterError 0x04)) ∧
    (s.ctxValid = false → s.p.getLsbD 127 = false → exec .minit s = .next (s.afterError 0x05)) ∧
    (s.ctxValid = false → s.p.getLsbD 127 = true → s.p.getLsbD 0 = false → exec .minit s = .next (s.afterError 0x06)) ∧
    (s.ctxValid = false → s.p.getLsbD 127 = true → s.p.getLsbD 0 = true →
      ∃ rc r2 v : Word128,
        exec .minit s = .next { s.afterOk false with rc := rc, r2 := r2, v := v, ctxValid := true } ∧
        rc.toNat = 2 ^ 128 - s.p.toNat ∧ rc.toNat = 2 ^ 128 % s.p.toNat ∧
        r2.toNat = rc.toNat * rc.toNat % s.p.toNat ∧ r2.toNat = 2 ^ 256 % s.p.toNat ∧
        ∃ e, e < 2 ^ 128 ∧ s.p.toNat * e % 2 ^ 128 = 1 ∧ v.toNat = (2 ^ 128 - e) % 2 ^ 128)

/-- R264, R266, R268: MMUL's value by the rule's own steps (`mont`), TOMONT's and FROMMONT's through the same steps, and CTX_UNINIT
without a context. What the value is under a context of MINIT is `MontgomeryResults`. -/
def Obligations.MontgomeryProductsComplete : Prop :=
  EncodedAs 0x33 (fun w => rd2Field w = 0) (fun w => .mmul (rdField w) (rs1Field w) (rs2Field w)) ∧
  EncodedAs 0x31 (fun w => rs2Field w = 0 ∧ rd2Field w = 0) (fun w => .tomont (rdField w) (rs1Field w)) ∧
  EncodedAs 0x32 (fun w => rs2Field w = 0 ∧ rd2Field w = 0) (fun w => .frommont (rdField w) (rs1Field w)) ∧
  ∀ (s : State) (i : Instr) (rd rs1 rs2 : Reg) (a b : Nat), s.Serves i → a = (s.reg rs1).toNat →
    (i = .mmul rd rs1 rs2 ∧ b = (s.reg rs2).toNat) ∨ (i = .tomont rd rs1 ∧ b = s.r2.toNat) ∨ (i = .frommont rd rs1 ∧ b = 1) →
    let t := a * b
    let sLow := t % 2 ^ 128 * s.v.toNat % 2 ^ 128
    let m := (t + sLow * s.p.toNat) / 2 ^ 128
    let m1 := if s.p.toNat ≤ m then m - s.p.toNat else m
    let m2 := if s.p.toNat ≤ m1 then m1 - s.p.toNat else m1
    (s.ctxValid = true → exec i s = .next { s.afterOk false with x := s.x.set rd (BitVec.ofNat 128 m2) }) ∧
    (s.ctxValid = false → exec i s = .next (s.afterError 0x03))

/-- R265, R266, R268: with a context as MINIT leaves it (`State.CtxInv`), MMUL, TOMONT and FROMMONT complete for every 128-bit input
with the residue that is `a·b·R⁻¹`, `a·R` and `a·R⁻¹` modulo P. -/
def Obligations.MontgomeryResults : Prop :=
  ∀ (s : State) (rd rs1 rs2 : Reg), s.CtxInv → s.ctxValid = true →
    (s.Serves (.mmul rd rs1 rs2) →
      ∃ m : Word128, exec (.mmul rd rs1 rs2) s = .next { s.afterOk false with x := s.x.set rd m } ∧
        m.toNat < s.p.toNat ∧ m.toNat * 2 ^ 128 % s.p.toNat = (s.reg rs1).toNat * (s.reg rs2).toNat % s.p.toNat) ∧
    (s.Serves (.tomont rd rs1) →
      exec (.tomont rd rs1) s =
        .next { s.afterOk false with x := s.x.set rd (BitVec.ofNat 128 ((s.reg rs1).toNat * 2 ^ 128 % s.p.toNat)) }) ∧
    (s.Serves (.frommont rd rs1) →
      ∃ m : Word128, exec (.frommont rd rs1) s = .next { s.afterOk false with x := s.x.set rd m } ∧
        m.toNat < s.p.toNat ∧ m.toNat * 2 ^ 128 % s.p.toNat = (s.reg rs1).toNat % s.p.toNat)

/-- R270: MADD gives ADDM's value (R222), and CTX_UNINIT without a context. -/
def Obligations.MaddCompletes : Prop :=
  EncodedAs 0x34 (fun w => rd2Field w = 0)
    (fun w => .madd (rdField w) (rs1Field w) (rs2Field w)) ∧
  ∀ (s : State) (rd rs1 rs2 : Reg), s.Serves (.madd rd rs1 rs2) →
    let sum := (s.reg rs1).toNat + (s.reg rs2).toNat
    (s.ctxValid = true →
      exec (.madd rd rs1 rs2) s =
        .next { s.afterOk false with
          x := s.x.set rd (BitVec.ofNat 128 ((if s.p.toNat ≤ sum then sum - s.p.toNat else sum) % 2 ^ 128)) }) ∧
    (s.ctxValid = false → exec (.madd rd rs1 rs2) s = .next (s.afterError 0x03))

/-- R261: with CTX_VALID = 0 every Montgomery command except MINIT completes with CTX_UNINIT. -/
def Obligations.UninitializedContextFails : Prop :=
  ∀ (s : State) (rd rs1 rs2 : Reg) (i : Instr), s.Serves i → s.ctxValid = false →
    i = .tomont rd rs1 ∨ i = .frommont rd rs1 ∨ i = .mmul rd rs1 rs2 ∨ i = .madd rd rs1 rs2 →
    exec i s = .next (s.afterError 0x03)

/-- R272: under contexts that MINIT leaves (`State.CtxInv`) for one P, FROMMONT of TOMONT of a residue gives it back, and
`FROMMONT(MMUL(TOMONT x, TOMONT y))` gives the product modulo P, which is MULM's result. -/
def Obligations.MontgomeryLaws : Prop :=
  ∀ (s₁ s₂ s₃ s₄ t₁ t₂ t₃ : State) (ra rx rb ry rc rd re rf : Reg) (p : Word128),
    (∀ s ∈ [s₁, s₂, s₃, s₄], s.CtxInv ∧ s.ctxValid = true ∧ s.p = p) →
    s₁.Serves (.tomont ra rx) → s₁.reg rx < p → exec (.tomont ra rx) s₁ = .next t₁ →
    (s₄.Serves (.frommont re rd) → s₄.reg rd = t₁.reg ra →
      ∃ u, exec (.frommont re rd) s₄ = .next u ∧ u.err = false ∧ u.reg re = s₁.reg rx) ∧
    (s₂.Serves (.tomont rb ry) → s₂.reg ry < p → exec (.tomont rb ry) s₂ = .next t₂ →
      s₃.Serves (.mmul rc ra rb) → s₃.reg ra = t₁.reg ra → s₃.reg rb = t₂.reg rb → exec (.mmul rc ra rb) s₃ = .next t₃ →
      s₄.Serves (.frommont re rd) → s₄.reg rd = t₃.reg rc →
      ∃ u, exec (.frommont re rd) s₄ = .next u ∧ u.err = false ∧
        (u.reg re).toNat = (s₁.reg rx).toNat * (s₂.reg ry).toNat % p.toNat ∧
        ∀ s₅ : State, s₅.Serves (.mulm rf rx ry) → s₅.p = p → s₅.reg rx = s₁.reg rx → s₅.reg ry = s₂.reg ry →
          ∃ v, exec (.mulm rf rx ry) s₅ = .next v ∧ v.reg rf = u.reg re)

/-- R273: under a context that MINIT leaves, RC is the Montgomery form of 1, and multiplying any 128-bit value by RC reduces it
modulo P. -/
def Obligations.MmulIdentity : Prop :=
  ∀ (s : State) (rd rs1 rs2 : Reg), s.CtxInv → s.ctxValid = true →
    (s.Serves (.tomont rd rs1) → s.reg rs1 = 1 →
      ∃ t, exec (.tomont rd rs1) s = .next t ∧ t.err = false ∧ t.reg rd = s.rc) ∧
    (s.Serves (.mmul rd rs1 rs2) → s.reg rs2 = s.rc →
      ∃ t, exec (.mmul rd rs1 rs2) s = .next t ∧ t.err = false ∧ (t.reg rd).toNat = (s.reg rs1).toNat % s.p.toNat)

/-! ### Curve points -/

/-- R292: PDBL, with its checks in their order; on residues infinity and a point with y = 0 give (0, 0); otherwise NOT_INVERTIBLE, or
the tangent formula with the inverse `e` of `2·y`. -/
def Obligations.PdblCompletes : Prop :=
  EncodedAs 0x41 (fun w => rs2Field w = 0 ∧ rd2Field w = 0 ∧ (rdField w).isEven = true ∧ (rs1Field w).isEven = true)
    (fun w => .pdbl (rdField w) (rs1Field w)) ∧
  ∀ (s : State) (rd rs1 : Reg), s.Serves (.pdbl rd rs1) →
    (s.p.getLsbD 127 = false → exec (.pdbl rd rs1) s = .next (s.afterError 0x05)) ∧
    (s.p.getLsbD 127 = true → ¬ (s.reg rs1 < s.p ∧ s.reg (partner rs1) < s.p ∧ s.curveA < s.p) →
      exec (.pdbl rd rs1) s = .next (s.afterError 0x07)) ∧
    (s.p.getLsbD 127 = true → s.reg rs1 < s.p → s.reg (partner rs1) < s.p → s.curveA < s.p →
    let p := s.p.toNat
    let x := (s.reg rs1).toNat
    let y := (s.reg (partner rs1)).toNat
    let ca := s.curveA.toNat
    let d := 2 * y % p
    let writes (c : Nat × Nat) : Host.Outcome State Fault Refusal :=
      .next { s.afterOk false with
        x := (s.x.set rd (BitVec.ofNat 128 c.1)).set (partner rd) (BitVec.ofNat 128 c.2) }
    rd.val % 2 = 0 ∧ (partner rd).val = rd.val + 1 ∧
    (y = 0 → exec (.pdbl rd rs1) s = writes (0, 0)) ∧
    (y ≠ 0 → Nat.gcd d p ≠ 1 → exec (.pdbl rd rs1) s = .next (s.afterError 0x08)) ∧
    (y ≠ 0 → Nat.gcd d p = 1 →
      ∃ e sl x2 y2 : Nat, e < p ∧ d * e % p = 1 ∧ sl = (3 * x * x + ca) * e % p ∧
        x2 < p ∧ (x2 : Int) = (sl * sl - 2 * x : Int) % p ∧ y2 < p ∧ (y2 : Int) = (sl * (x - x2) - y : Int) % p ∧
        exec (.pdbl rd rs1) s = writes (x2, y2)))

/-- R294, R295: PADD, with its checks in their order; on residues case by case, with the inverse `e` of `ax − bx` in the chord case;
the doubling case is PDBL's formula. -/
def Obligations.PaddCompletes : Prop :=
  EncodedAs 0x40 (fun w => rd2Field w = 0 ∧ (rdField w).isEven = true ∧ (rs1Field w).isEven = true ∧ (rs2Field w).isEven = true)
    (fun w => .padd (rdField w) (rs1Field w) (rs2Field w)) ∧
  ∀ (s : State) (rd rs1 rs2 : Reg), s.Serves (.padd rd rs1 rs2) →
    (s.p.getLsbD 127 = false → exec (.padd rd rs1 rs2) s = .next (s.afterError 0x05)) ∧
    (s.p.getLsbD 127 = true →
      ¬ (s.reg rs1 < s.p ∧ s.reg (partner rs1) < s.p ∧ s.reg rs2 < s.p ∧ s.reg (partner rs2) < s.p ∧ s.curveA < s.p) →
      exec (.padd rd rs1 rs2) s = .next (s.afterError 0x07)) ∧
    (s.p.getLsbD 127 = true → s.reg rs1 < s.p → s.reg (partner rs1) < s.p → s.reg rs2 < s.p → s.reg (partner rs2) < s.p →
    s.curveA < s.p →
    let p := s.p.toNat
    let ax := (s.reg rs1).toNat
    let ay := (s.reg (partner rs1)).toNat
    let bx := (s.reg rs2).toNat
    let bY := (s.reg (partner rs2)).toNat
    let ca := s.curveA.toNat
    let writes (c : Nat × Nat) : Host.Outcome State Fault Refusal :=
      .next { s.afterOk false with
        x := (s.x.set rd (BitVec.ofNat 128 c.1)).set (partner rd) (BitVec.ofNat 128 c.2) }
    let result := exec (.padd rd rs1 rs2) s
    rd.val % 2 = 0 ∧ (partner rd).val = rd.val + 1 ∧
    ((ax, ay) = (0, 0) → result = writes (bx, bY)) ∧
    ((ax, ay) ≠ (0, 0) → (bx, bY) = (0, 0) → result = writes (ax, ay)) ∧
    ((ax, ay) ≠ (0, 0) → (bx, bY) ≠ (0, 0) → ax ≠ bx → ∀ d : Nat, d < p → (d : Int) = (ax - bx : Int) % p →
      (Nat.gcd d p ≠ 1 → result = .next (s.afterError 0x08)) ∧
      (Nat.gcd d p = 1 →
        ∃ e sl cx cy : Nat, e < p ∧ d * e % p = 1 ∧ sl < p ∧ (sl : Int) = ((ay - bY) * e : Int) % p ∧
          cx < p ∧ (cx : Int) = (sl * sl - ax - bx : Int) % p ∧ cy < p ∧ (cy : Int) = (sl * (ax - cx) - ay : Int) % p ∧
          result = writes (cx, cy))) ∧
    ((ax, ay) ≠ (0, 0) → (bx, bY) ≠ (0, 0) → ax = bx → (ay + bY) % p = 0 → result = writes (0, 0)) ∧
    ((ax, ay) ≠ (0, 0) → (bx, bY) ≠ (0, 0) → ax = bx → (ay + bY) % p ≠ 0 → ay = bY →
      (Nat.gcd (2 * ay % p) p ≠ 1 → result = .next (s.afterError 0x08)) ∧
      (Nat.gcd (2 * ay % p) p = 1 →
        ∃ e sl x2 y2 : Nat, e < p ∧ 2 * ay % p * e % p = 1 ∧ sl = (3 * ax * ax + ca) * e % p ∧
          x2 < p ∧ (x2 : Int) = (sl * sl - 2 * ax : Int) % p ∧ y2 < p ∧ (y2 : Int) = (sl * (ax - x2) - ay : Int) % p ∧
          result = writes (x2, y2))) ∧
    ((ax, ay) ≠ (0, 0) → (bx, bY) ≠ (0, 0) → ax = bx → (ay + bY) % p ≠ 0 → ay ≠ bY →
      result = .next (s.afterError 0x09)))

/-- What `addPoint` and `doublePoint`, of which the laws below speak, are: the values PADD and PDBL write on residues under a normalized
P, or the errors they complete with. -/
def Obligations.PointCommandsCompute : Prop :=
  ∀ (s : State) (rd rs1 rs2 : Reg), s.p.getLsbD 127 = true →
    s.reg rs1 < s.p → s.reg (partner rs1) < s.p → s.reg rs2 < s.p → s.reg (partner rs2) < s.p → s.curveA < s.p →
    let a : Point := ((s.reg rs1).toNat, (s.reg (partner rs1)).toNat)
    let b : Point := ((s.reg rs2).toNat, (s.reg (partner rs2)).toNat)
    let completes (r : Except ErrorCode Point) : Host.Outcome State Fault Refusal :=
      match r with
      | .ok c => .next { s.afterOk false with
          x := (s.x.set rd (BitVec.ofNat 128 c.1)).set (partner rd) (BitVec.ofNat 128 c.2) }
      | .error code => .next (s.afterError code.value)
    (s.Serves (.padd rd rs1 rs2) →
      exec (.padd rd rs1 rs2) s = completes (addPoint s.p.toNat s.curveA.toNat a b)) ∧
    (s.Serves (.pdbl rd rs1) → exec (.pdbl rd rs1) s = completes (doublePoint s.p.toNat s.curveA.toNat a))

/-- R294 ("the result is symmetric in a and b"): PADD of two points in either order writes the same point or completes with the same
error, whatever P and the coordinates. -/
def Obligations.PaddSymmetric : Prop :=
  ∀ (s s' : State) (rd rs1 rs2 : Reg), s.Serves (.padd rd rs1 rs2) → s'.Serves (.padd rd rs2 rs1) →
    s'.x = s.x → s'.p = s.p → s'.curveA = s.curveA →
    ∃ t t', exec (.padd rd rs1 rs2) s = .next t ∧ exec (.padd rd rs2 rs1) s' = .next t' ∧
      t'.x = t.x ∧ t'.err = t.err ∧ t'.errCode = t.errCode

/-- R296, the laws that hold for every odd normalized P: (0, 0) is the identity, `PADD(a, (a.x, (P − a.y) mod P)) = (0, 0)`, and
`PADD(a, a) = PDBL(a)`. -/
def Obligations.PointLaws : Prop :=
  ∀ (p ca : Nat) (a : Point), 2 ^ 127 ≤ p → p < 2 ^ 128 → p % 2 = 1 → a.1 < p → a.2 < p →
    addPoint p ca a (0, 0) = .ok a ∧ addPoint p ca (0, 0) a = .ok a ∧
      addPoint p ca a (a.1, (p - a.2) % p) = .ok (0, 0) ∧ addPoint p ca a a = doublePoint p ca a

/-- R290, R294, R296: over a prime P, on the curve `y² = x³ + CURVE_A·x + b` with `b ≢ 0`, the sum of two points of the curve (infinity
among them) is never an error, and is again a point of the curve. -/
def Obligations.PaddStaysOnCurve : Prop :=
  ∀ (p ca cb : Nat) (a b : Point), Nat.Prime p → 2 ^ 127 ≤ p → p < 2 ^ 128 → ca < p → cb % p ≠ 0 →
    let onCurve (q : Point) : Prop :=
      q.1 < p ∧ q.2 < p ∧ (q = (0, 0) ∨ q.2 * q.2 % p = (q.1 * q.1 * q.1 + ca * q.1 + cb) % p)
    onCurve a → onCurve b → ∃ c, addPoint p ca a b = .ok c ∧ onCurve c

/-- R296: over a prime P, on a curve `y² = x³ + CURVE_A·x + b` with `b ≢ 0` that is not singular (the rule's group law needs that),
point addition is associative. -/
def Obligations.PaddAssociative : Prop :=
  ∀ (p ca cb : Nat) (a b c ab bc : Point), Nat.Prime p → 2 ^ 127 ≤ p → p < 2 ^ 128 → ca < p → cb % p ≠ 0 →
    (4 * ca ^ 3 + 27 * cb ^ 2) % p ≠ 0 →
    let onCurve (q : Point) : Prop :=
      q.1 < p ∧ q.2 < p ∧ (q = (0, 0) ∨ q.2 * q.2 % p = (q.1 * q.1 * q.1 + ca * q.1 + cb) % p)
    onCurve a → onCurve b → onCurve c → addPoint p ca a b = .ok ab → addPoint p ca b c = .ok bc →
      ∃ d, addPoint p ca ab c = .ok d ∧ addPoint p ca a bc = .ok d

/-! ### The invariant -/

/-- R36, R41, R42, R43, R52, R96, R143, R320: every step keeps the invariant: the in-flight command is the word in CMD with the present
register values latched; the context registers are the constants of the present P, or 0; ERR and ERRCODE agree. -/
def Obligations.StepKeepsInvariant : Prop :=
  ∀ s t : State, s.Inv → step s = .next t → t.Inv

/-- R62: the invariant holds after reset. -/
def Obligations.ResetHasInvariant : Prop :=
  State.reset.Inv

/-- R57, R96, R143: in a state with the invariant, the command in flight is the one CMD holds, served with the present register
values: the premise of the statements about commands. -/
def Obligations.InvariantServesCommand : Prop :=
  ∀ (s : State) (f : Flight) (i : Instr), s.Inv → s.flight = some f → decode f.word = .ok i → s.Serves i
end

