-- ==== Sys2Proof/Laws/State.lean ====
section
/-! SUPPORT. One lemma per field per update of the state, so that no later proof unfolds a record update. -/

namespace Sys2Proof.Machine

/-! ### `setReg` -/

@[simp] theorem setReg_x (s : State) (r : Reg) (w : Word128) : (s.setReg r w).x = s.x.set r w := rfl
@[simp] theorem setReg_p (s : State) (r : Reg) (w : Word128) : (s.setReg r w).p = s.p := rfl
@[simp] theorem setReg_curveA (s : State) (r : Reg) (w : Word128) : (s.setReg r w).curveA = s.curveA := rfl
@[simp] theorem setReg_rc (s : State) (r : Reg) (w : Word128) : (s.setReg r w).rc = s.rc := rfl
@[simp] theorem setReg_r2 (s : State) (r : Reg) (w : Word128) : (s.setReg r w).r2 = s.r2 := rfl
@[simp] theorem setReg_v (s : State) (r : Reg) (w : Word128) : (s.setReg r w).v = s.v := rfl
@[simp] theorem setReg_ctxValid (s : State) (r : Reg) (w : Word128) : (s.setReg r w).ctxValid = s.ctxValid := rfl
@[simp] theorem setReg_irqEn (s : State) (r : Reg) (w : Word128) : (s.setReg r w).irqEn = s.irqEn := rfl
@[simp] theorem setReg_done (s : State) (r : Reg) (w : Word128) : (s.setReg r w).done = s.done := rfl
@[simp] theorem setReg_err (s : State) (r : Reg) (w : Word128) : (s.setReg r w).err = s.err := rfl
@[simp] theorem setReg_flag (s : State) (r : Reg) (w : Word128) : (s.setReg r w).flag = s.flag := rfl
@[simp] theorem setReg_busErr (s : State) (r : Reg) (w : Word128) : (s.setReg r w).busErr = s.busErr := rfl
@[simp] theorem setReg_errCode (s : State) (r : Reg) (w : Word128) : (s.setReg r w).errCode = s.errCode := rfl
@[simp] theorem setReg_cmd (s : State) (r : Reg) (w : Word128) : (s.setReg r w).cmd = s.cmd := rfl
@[simp] theorem setReg_flight (s : State) (r : Reg) (w : Word128) : (s.setReg r w).flight = s.flight := rfl
@[simp] theorem setReg_events (s : State) (r : Reg) (w : Word128) : (s.setReg r w).events = s.events := rfl
@[simp] theorem setReg_answer (s : State) (r : Reg) (w : Word128) : (s.setReg r w).answer = s.answer := rfl

/-! ### `respond` -/

@[simp] theorem respond_x (s : State) (a : Answer) : (s.respond a).x = s.x := rfl
@[simp] theorem respond_p (s : State) (a : Answer) : (s.respond a).p = s.p := rfl
@[simp] theorem respond_curveA (s : State) (a : Answer) : (s.respond a).curveA = s.curveA := rfl
@[simp] theorem respond_rc (s : State) (a : Answer) : (s.respond a).rc = s.rc := rfl
@[simp] theorem respond_r2 (s : State) (a : Answer) : (s.respond a).r2 = s.r2 := rfl
@[simp] theorem respond_v (s : State) (a : Answer) : (s.respond a).v = s.v := rfl
@[simp] theorem respond_ctxValid (s : State) (a : Answer) : (s.respond a).ctxValid = s.ctxValid := rfl
@[simp] theorem respond_irqEn (s : State) (a : Answer) : (s.respond a).irqEn = s.irqEn := rfl
@[simp] theorem respond_done (s : State) (a : Answer) : (s.respond a).done = s.done := rfl
@[simp] theorem respond_err (s : State) (a : Answer) : (s.respond a).err = s.err := rfl
@[simp] theorem respond_flag (s : State) (a : Answer) : (s.respond a).flag = s.flag := rfl
@[simp] theorem respond_busErr (s : State) (a : Answer) : (s.respond a).busErr = s.busErr := rfl
@[simp] theorem respond_errCode (s : State) (a : Answer) : (s.respond a).errCode = s.errCode := rfl
@[simp] theorem respond_cmd (s : State) (a : Answer) : (s.respond a).cmd = s.cmd := rfl
@[simp] theorem respond_flight (s : State) (a : Answer) : (s.respond a).flight = s.flight := rfl
@[simp] theorem respond_events (s : State) (a : Answer) : (s.respond a).events = s.events := rfl
@[simp] theorem respond_answer (s : State) (a : Answer) : (s.respond a).answer = some a := rfl

/-! ### `busError` -/

@[simp] theorem busError_x (s : State) (a : Answer) : (s.busError a).x = s.x := rfl
@[simp] theorem busError_p (s : State) (a : Answer) : (s.busError a).p = s.p := rfl
@[simp] theorem busError_curveA (s : State) (a : Answer) : (s.busError a).curveA = s.curveA := rfl
@[simp] theorem busError_rc (s : State) (a : Answer) : (s.busError a).rc = s.rc := rfl
@[simp] theorem busError_r2 (s : State) (a : Answer) : (s.busError a).r2 = s.r2 := rfl
@[simp] theorem busError_v (s : State) (a : Answer) : (s.busError a).v = s.v := rfl
@[simp] theorem busError_ctxValid (s : State) (a : Answer) : (s.busError a).ctxValid = s.ctxValid := rfl
@[simp] theorem busError_irqEn (s : State) (a : Answer) : (s.busError a).irqEn = s.irqEn := rfl
@[simp] theorem busError_done (s : State) (a : Answer) : (s.busError a).done = s.done := rfl
@[simp] theorem busError_err (s : State) (a : Answer) : (s.busError a).err = s.err := rfl
@[simp] theorem busError_flag (s : State) (a : Answer) : (s.busError a).flag = s.flag := rfl
@[simp] theorem busError_busErr (s : State) (a : Answer) : (s.busError a).busErr = true := rfl
@[simp] theorem busError_errCode (s : State) (a : Answer) : (s.busError a).errCode = s.errCode := rfl
@[simp] theorem busError_cmd (s : State) (a : Answer) : (s.busError a).cmd = s.cmd := rfl
@[simp] theorem busError_flight (s : State) (a : Answer) : (s.busError a).flight = s.flight := rfl
@[simp] theorem busError_events (s : State) (a : Answer) : (s.busError a).events = s.events := rfl
@[simp] theorem busError_answer (s : State) (a : Answer) : (s.busError a).answer = some a := rfl

/-! ### `accept` -/

@[simp] theorem accept_x (s : State) (w : Limb) : (s.accept w).x = s.x := rfl
@[simp] theorem accept_p (s : State) (w : Limb) : (s.accept w).p = s.p := rfl
@[simp] theorem accept_curveA (s : State) (w : Limb) : (s.accept w).curveA = s.curveA := rfl
@[simp] theorem accept_rc (s : State) (w : Limb) : (s.accept w).rc = s.rc := rfl
@[simp] theorem accept_r2 (s : State) (w : Limb) : (s.accept w).r2 = s.r2 := rfl
@[simp] theorem accept_v (s : State) (w : Limb) : (s.accept w).v = s.v := rfl
@[simp] theorem accept_ctxValid (s : State) (w : Limb) : (s.accept w).ctxValid = s.ctxValid := rfl
@[simp] theorem accept_irqEn (s : State) (w : Limb) : (s.accept w).irqEn = s.irqEn := rfl
@[simp] theorem accept_done (s : State) (w : Limb) : (s.accept w).done = false := rfl
@[simp] theorem accept_err (s : State) (w : Limb) : (s.accept w).err = false := rfl
@[simp] theorem accept_flag (s : State) (w : Limb) : (s.accept w).flag = s.flag := rfl
@[simp] theorem accept_busErr (s : State) (w : Limb) : (s.accept w).busErr = s.busErr := rfl
@[simp] theorem accept_errCode (s : State) (w : Limb) : (s.accept w).errCode = 0 := rfl
@[simp] theorem accept_cmd (s : State) (w : Limb) : (s.accept w).cmd = w := rfl
@[simp] theorem accept_flight (s : State) (w : Limb) : (s.accept w).flight = some ⟨w, s.latch (rs1Field w) (rs2Field w)⟩ := rfl
@[simp] theorem accept_events (s : State) (w : Limb) : (s.accept w).events = s.events := rfl
@[simp] theorem accept_answer (s : State) (w : Limb) : (s.accept w).answer = s.answer := rfl

/-! ### `completeError` -/

@[simp] theorem completeError_x (s : State) (c : ErrorCode) : (s.completeError c).x = s.x := rfl
@[simp] theorem completeError_p (s : State) (c : ErrorCode) : (s.completeError c).p = s.p := rfl
@[simp] theorem completeError_curveA (s : State) (c : ErrorCode) : (s.completeError c).curveA = s.curveA := rfl
@[simp] theorem completeError_rc (s : State) (c : ErrorCode) : (s.completeError c).rc = s.rc := rfl
@[simp] theorem completeError_r2 (s : State) (c : ErrorCode) : (s.completeError c).r2 = s.r2 := rfl
@[simp] theorem completeError_v (s : State) (c : ErrorCode) : (s.completeError c).v = s.v := rfl
@[simp] theorem completeError_ctxValid (s : State) (c : ErrorCode) : (s.completeError c).ctxValid = s.ctxValid := rfl
@[simp] theorem completeError_irqEn (s : State) (c : ErrorCode) : (s.completeError c).irqEn = s.irqEn := rfl
@[simp] theorem completeError_done (s : State) (c : ErrorCode) : (s.completeError c).done = true := rfl
@[simp] theorem completeError_err (s : State) (c : ErrorCode) : (s.completeError c).err = true := rfl
@[simp] theorem completeError_flag (s : State) (c : ErrorCode) : (s.completeError c).flag = false := rfl
@[simp] theorem completeError_busErr (s : State) (c : ErrorCode) : (s.completeError c).busErr = s.busErr := rfl
@[simp] theorem completeError_errCode (s : State) (c : ErrorCode) : (s.completeError c).errCode = c.value := rfl
@[simp] theorem completeError_cmd (s : State) (c : ErrorCode) : (s.completeError c).cmd = s.cmd := rfl
@[simp] theorem completeError_flight (s : State) (c : ErrorCode) : (s.completeError c).flight = none := rfl
@[simp] theorem completeError_events (s : State) (c : ErrorCode) : (s.completeError c).events = s.events := rfl
@[simp] theorem completeError_answer (s : State) (c : ErrorCode) : (s.completeError c).answer = s.answer := rfl

/-! ### `writeP` -/

@[simp] theorem writeP_x (s : State) (l : LimbIx) (d : Limb) : (s.writeP l d).x = s.x := rfl
@[simp] theorem writeP_p (s : State) (l : LimbIx) (d : Limb) : (s.writeP l d).p = putLimb s.p l d := rfl
@[simp] theorem writeP_curveA (s : State) (l : LimbIx) (d : Limb) : (s.writeP l d).curveA = s.curveA := rfl
@[simp] theorem writeP_rc (s : State) (l : LimbIx) (d : Limb) : (s.writeP l d).rc = 0 := rfl
@[simp] theorem writeP_r2 (s : State) (l : LimbIx) (d : Limb) : (s.writeP l d).r2 = 0 := rfl
@[simp] theorem writeP_v (s : State) (l : LimbIx) (d : Limb) : (s.writeP l d).v = 0 := rfl
@[simp] theorem writeP_ctxValid (s : State) (l : LimbIx) (d : Limb) : (s.writeP l d).ctxValid = false := rfl
@[simp] theorem writeP_irqEn (s : State) (l : LimbIx) (d : Limb) : (s.writeP l d).irqEn = s.irqEn := rfl
@[simp] theorem writeP_done (s : State) (l : LimbIx) (d : Limb) : (s.writeP l d).done = s.done := rfl
@[simp] theorem writeP_err (s : State) (l : LimbIx) (d : Limb) : (s.writeP l d).err = s.err := rfl
@[simp] theorem writeP_flag (s : State) (l : LimbIx) (d : Limb) : (s.writeP l d).flag = s.flag := rfl
@[simp] theorem writeP_busErr (s : State) (l : LimbIx) (d : Limb) : (s.writeP l d).busErr = s.busErr := rfl
@[simp] theorem writeP_errCode (s : State) (l : LimbIx) (d : Limb) : (s.writeP l d).errCode = s.errCode := rfl
@[simp] theorem writeP_cmd (s : State) (l : LimbIx) (d : Limb) : (s.writeP l d).cmd = s.cmd := rfl
@[simp] theorem writeP_flight (s : State) (l : LimbIx) (d : Limb) : (s.writeP l d).flight = s.flight := rfl
@[simp] theorem writeP_events (s : State) (l : LimbIx) (d : Limb) : (s.writeP l d).events = s.events := rfl
@[simp] theorem writeP_answer (s : State) (l : LimbIx) (d : Limb) : (s.writeP l d).answer = s.answer := rfl

/-! ### `writeStatus` -/

@[simp] theorem writeStatus_x (s : State) (d : Limb) : (s.writeStatus d).x = s.x := rfl
@[simp] theorem writeStatus_p (s : State) (d : Limb) : (s.writeStatus d).p = s.p := rfl
@[simp] theorem writeStatus_curveA (s : State) (d : Limb) : (s.writeStatus d).curveA = s.curveA := rfl
@[simp] theorem writeStatus_rc (s : State) (d : Limb) : (s.writeStatus d).rc = s.rc := rfl
@[simp] theorem writeStatus_r2 (s : State) (d : Limb) : (s.writeStatus d).r2 = s.r2 := rfl
@[simp] theorem writeStatus_v (s : State) (d : Limb) : (s.writeStatus d).v = s.v := rfl
@[simp] theorem writeStatus_ctxValid (s : State) (d : Limb) : (s.writeStatus d).ctxValid = s.ctxValid := rfl
@[simp] theorem writeStatus_irqEn (s : State) (d : Limb) : (s.writeStatus d).irqEn = s.irqEn := rfl
@[simp] theorem writeStatus_done (s : State) (d : Limb) : (s.writeStatus d).done = (s.done && !d.getLsbD 1) := rfl
@[simp] theorem writeStatus_err (s : State) (d : Limb) : (s.writeStatus d).err = (s.err && !d.getLsbD 2) := rfl
@[simp] theorem writeStatus_flag (s : State) (d : Limb) : (s.writeStatus d).flag = s.flag := rfl
@[simp] theorem writeStatus_busErr (s : State) (d : Limb) : (s.writeStatus d).busErr = (s.busErr && !d.getLsbD 5) := rfl
@[simp] theorem writeStatus_errCode (s : State) (d : Limb) : (s.writeStatus d).errCode = (if d.getLsbD 2 then 0 else s.errCode) := rfl
@[simp] theorem writeStatus_cmd (s : State) (d : Limb) : (s.writeStatus d).cmd = s.cmd := rfl
@[simp] theorem writeStatus_flight (s : State) (d : Limb) : (s.writeStatus d).flight = s.flight := rfl
@[simp] theorem writeStatus_events (s : State) (d : Limb) : (s.writeStatus d).events = s.events := rfl
@[simp] theorem writeStatus_answer (s : State) (d : Limb) : (s.writeStatus d).answer = s.answer := rfl

/-! ### `afterOk` -/

@[simp] theorem afterOk_x (s : State) (c : Bool) : (s.afterOk c).x = s.x := rfl
@[simp] theorem afterOk_p (s : State) (c : Bool) : (s.afterOk c).p = s.p := rfl
@[simp] theorem afterOk_curveA (s : State) (c : Bool) : (s.afterOk c).curveA = s.curveA := rfl
@[simp] theorem afterOk_rc (s : State) (c : Bool) : (s.afterOk c).rc = s.rc := rfl
@[simp] theorem afterOk_r2 (s : State) (c : Bool) : (s.afterOk c).r2 = s.r2 := rfl
@[simp] theorem afterOk_v (s : State) (c : Bool) : (s.afterOk c).v = s.v := rfl
@[simp] theorem afterOk_ctxValid (s : State) (c : Bool) : (s.afterOk c).ctxValid = s.ctxValid := rfl
@[simp] theorem afterOk_irqEn (s : State) (c : Bool) : (s.afterOk c).irqEn = s.irqEn := rfl
@[simp] theorem afterOk_done (s : State) (c : Bool) : (s.afterOk c).done = true := rfl
@[simp] theorem afterOk_err (s : State) (c : Bool) : (s.afterOk c).err = false := rfl
@[simp] theorem afterOk_flag (s : State) (c : Bool) : (s.afterOk c).flag = c := rfl
@[simp] theorem afterOk_busErr (s : State) (c : Bool) : (s.afterOk c).busErr = s.busErr := rfl
@[simp] theorem afterOk_errCode (s : State) (c : Bool) : (s.afterOk c).errCode = 0 := rfl
@[simp] theorem afterOk_cmd (s : State) (c : Bool) : (s.afterOk c).cmd = s.cmd := rfl
@[simp] theorem afterOk_flight (s : State) (c : Bool) : (s.afterOk c).flight = none := rfl
@[simp] theorem afterOk_events (s : State) (c : Bool) : (s.afterOk c).events = s.events := rfl
@[simp] theorem afterOk_answer (s : State) (c : Bool) : (s.afterOk c).answer = s.answer := rfl

/-! ### `afterError` -/

@[simp] theorem afterError_x (s : State) (c : BitVec 8) : (s.afterError c).x = s.x := rfl
@[simp] theorem afterError_p (s : State) (c : BitVec 8) : (s.afterError c).p = s.p := rfl
@[simp] theorem afterError_curveA (s : State) (c : BitVec 8) : (s.afterError c).curveA = s.curveA := rfl
@[simp] theorem afterError_rc (s : State) (c : BitVec 8) : (s.afterError c).rc = s.rc := rfl
@[simp] theorem afterError_r2 (s : State) (c : BitVec 8) : (s.afterError c).r2 = s.r2 := rfl
@[simp] theorem afterError_v (s : State) (c : BitVec 8) : (s.afterError c).v = s.v := rfl
@[simp] theorem afterError_ctxValid (s : State) (c : BitVec 8) : (s.afterError c).ctxValid = s.ctxValid := rfl
@[simp] theorem afterError_irqEn (s : State) (c : BitVec 8) : (s.afterError c).irqEn = s.irqEn := rfl
@[simp] theorem afterError_done (s : State) (c : BitVec 8) : (s.afterError c).done = true := rfl
@[simp] theorem afterError_err (s : State) (c : BitVec 8) : (s.afterError c).err = true := rfl
@[simp] theorem afterError_flag (s : State) (c : BitVec 8) : (s.afterError c).flag = false := rfl
@[simp] theorem afterError_busErr (s : State) (c : BitVec 8) : (s.afterError c).busErr = s.busErr := rfl
@[simp] theorem afterError_errCode (s : State) (c : BitVec 8) : (s.afterError c).errCode = c := rfl
@[simp] theorem afterError_cmd (s : State) (c : BitVec 8) : (s.afterError c).cmd = s.cmd := rfl
@[simp] theorem afterError_flight (s : State) (c : BitVec 8) : (s.afterError c).flight = none := rfl
@[simp] theorem afterError_events (s : State) (c : BitVec 8) : (s.afterError c).events = s.events := rfl
@[simp] theorem afterError_answer (s : State) (c : BitVec 8) : (s.afterError c).answer = s.answer := rfl

/-! ### `resetBlock` -/

@[simp] theorem resetBlock_x (s : State) : s.resetBlock.x = State.reset.x := rfl
@[simp] theorem resetBlock_p (s : State) : s.resetBlock.p = State.reset.p := rfl
@[simp] theorem resetBlock_curveA (s : State) : s.resetBlock.curveA = State.reset.curveA := rfl
@[simp] theorem resetBlock_rc (s : State) : s.resetBlock.rc = State.reset.rc := rfl
@[simp] theorem resetBlock_r2 (s : State) : s.resetBlock.r2 = State.reset.r2 := rfl
@[simp] theorem resetBlock_v (s : State) : s.resetBlock.v = State.reset.v := rfl
@[simp] theorem resetBlock_ctxValid (s : State) : s.resetBlock.ctxValid = State.reset.ctxValid := rfl
@[simp] theorem resetBlock_irqEn (s : State) : s.resetBlock.irqEn = State.reset.irqEn := rfl
@[simp] theorem resetBlock_done (s : State) : s.resetBlock.done = State.reset.done := rfl
@[simp] theorem resetBlock_err (s : State) : s.resetBlock.err = State.reset.err := rfl
@[simp] theorem resetBlock_flag (s : State) : s.resetBlock.flag = State.reset.flag := rfl
@[simp] theorem resetBlock_busErr (s : State) : s.resetBlock.busErr = State.reset.busErr := rfl
@[simp] theorem resetBlock_errCode (s : State) : s.resetBlock.errCode = State.reset.errCode := rfl
@[simp] theorem resetBlock_cmd (s : State) : s.resetBlock.cmd = State.reset.cmd := rfl
@[simp] theorem resetBlock_flight (s : State) : s.resetBlock.flight = State.reset.flight := rfl
@[simp] theorem resetBlock_events (s : State) : s.resetBlock.events = s.events := rfl
@[simp] theorem resetBlock_answer (s : State) : s.resetBlock.answer = s.answer := rfl

/-! ### The register writes and the context write of a completion -/

@[simp] theorem writeRegs_nil (s : State) : s.writeRegs [] = s := rfl

@[simp] theorem writeRegs_cons (s : State) (rv : Reg × Word128) (ws : List (Reg × Word128)) :
    s.writeRegs (rv :: ws) = (s.setReg rv.1 rv.2).writeRegs ws := rfl

/-- Register writes touch the operand registers only. -/
theorem writeRegs_eq (s : State) (ws : List (Reg × Word128)) : ∃ x, s.writeRegs ws = { s with x := x } := by
  induction ws generalizing s with
  | nil => exact ⟨s.x, rfl⟩
  | cons rv ws ih =>
    obtain ⟨x, hx⟩ := ih (s.setReg rv.1 rv.2)
    exact ⟨x, hx⟩

@[simp] theorem writeCtx_none (s : State) : s.writeCtx none = s := rfl

@[simp] theorem writeCtx_some (s : State) (c : CtxConsts) :
    s.writeCtx (some c) = { s with rc := c.rc, r2 := c.r2, v := c.v, ctxValid := true } := rfl

/-! ### Operand registers -/

theorem reg_setReg (s : State) (r r' : Reg) (w : Word128) :
    (s.setReg r w).reg r' = if r = r' then w else s.reg r' := by
  simp [State.reg, State.setReg, Vector.getElem_set, Fin.ext_iff]

@[simp] theorem reg_setReg_same (s : State) (r : Reg) (w : Word128) : (s.setReg r w).reg r = w := by
  simp [reg_setReg]

theorem reg_setReg_ne (s : State) {r r' : Reg} (w : Word128) (h : r ≠ r') : (s.setReg r w).reg r' = s.reg r' := by
  simp [reg_setReg, h]

/-- A register no write of the list names keeps its value. -/
theorem reg_writeRegs_of_not_mem (s : State) (ws : List (Reg × Word128)) (r : Reg) (h : ∀ rv ∈ ws, rv.1 ≠ r) :
    (s.writeRegs ws).reg r = s.reg r := by
  induction ws generalizing s with
  | nil => rfl
  | cons rv ws ih =>
    rw [writeRegs_cons, ih _ fun q hq => h q (List.mem_cons_of_mem _ hq)]
    exact reg_setReg_ne s _ (h rv List.mem_cons_self)

/-- Two states with the same registers have the same values in them. -/
theorem reg_congr {s t : State} (h : s.x = t.x) (r : Reg) : s.reg r = t.reg r := by
  simp [State.reg, h]

/-- What a register reads in a state whose register file is another's with one write. -/
theorem reg_of_x_set {s t : State} {r : Reg} {w : Word128} (h : t.x = s.x.set r w) (r' : Reg) :
    t.reg r' = if r = r' then w else s.reg r' := by
  simp [State.reg, h, Vector.getElem_set, Fin.ext_iff]

/-- What a register reads after two writes to the register file, the second of which wins. -/
theorem reg_of_x_set_set {s t : State} {r q : Reg} {w v : Word128} (h : t.x = (s.x.set r w).set q v) (r' : Reg) :
    t.reg r' = if q = r' then v else if r = r' then w else s.reg r' := by
  simp [State.reg, h, Vector.getElem_set, Fin.ext_iff]

/-- A latch is a function of the operand and context registers. -/
theorem latch_congr {s t : State} (hx : s.x = t.x) (hp : s.p = t.p) (ha : s.curveA = t.curveA) (hrc : s.rc = t.rc)
    (hr2 : s.r2 = t.r2) (hv : s.v = t.v) (hc : s.ctxValid = t.ctxValid) (a b : Reg) : s.latch a b = t.latch a b := by
  simp [State.latch, State.reg, hx, hp, ha, hrc, hr2, hv, hc]

end Sys2Proof.Machine
end

