-- ==== Sys2Proof/Laws/Decode.lean ====
section
/-! SUPPORT. The decoder's fields on packed words, and what a decoded word says about its command. -/

namespace Sys2Proof

/-- The 24 bits the encoder packs fit in a word. -/
theorem packWord_toNat (op : Nat) (rd rs1 rs2 rd2 : Reg) (h : op < 256) :
    (packWord op rd rs1 rs2 rd2).toNat = op + rd.val * 2 ^ 8 + rs1.val * 2 ^ 12 + rs2.val * 2 ^ 16 + rd2.val * 2 ^ 20 := by
  simp only [packWord, BitVec.toNat_ofNat]
  omega

theorem opcodeField_packWord (op : Nat) (rd rs1 rs2 rd2 : Reg) (h : op < 256) :
    opcodeField (packWord op rd rs1 rs2 rd2) = op := by
  rw [opcodeField, packWord_toNat _ _ _ _ _ h]; omega

theorem rdField_packWord (op : Nat) (rd rs1 rs2 rd2 : Reg) (h : op < 256) :
    rdField (packWord op rd rs1 rs2 rd2) = rd := by
  apply Fin.ext; simp only [rdField, regField, packWord_toNat _ _ _ _ _ h]; omega

theorem rs1Field_packWord (op : Nat) (rd rs1 rs2 rd2 : Reg) (h : op < 256) :
    rs1Field (packWord op rd rs1 rs2 rd2) = rs1 := by
  apply Fin.ext; simp only [rs1Field, regField, packWord_toNat _ _ _ _ _ h]; omega

theorem rs2Field_packWord (op : Nat) (rd rs1 rs2 rd2 : Reg) (h : op < 256) :
    rs2Field (packWord op rd rs1 rs2 rd2) = rs2 := by
  apply Fin.ext; simp only [rs2Field, regField, packWord_toNat _ _ _ _ _ h]; omega

theorem rd2Field_packWord (op : Nat) (rd rs1 rs2 rd2 : Reg) (h : op < 256) :
    rd2Field (packWord op rd rs1 rs2 rd2) = rd2 := by
  apply Fin.ext; simp only [rd2Field, regField, packWord_toNat _ _ _ _ _ h]; omega

theorem rsvField_packWord (op : Nat) (rd rs1 rs2 rd2 : Reg) (h : op < 256) :
    rsvField (packWord op rd rs1 rs2 rd2) = 0 := by
  rw [rsvField, packWord_toNat _ _ _ _ _ h]; omega

/-- What passes the operand checks (R113, R114, R115). -/
theorem checkOperands_eq_ok {w : Limb} {unused : List Reg} {i j : Instr} :
    checkOperands w unused i = .ok j ↔ rsvField w = 0 ∧ (∀ r ∈ unused, r = 0) ∧ i.wellFormed = true ∧ i = j := by
  unfold checkOperands
  split
  · next h => simp at h; simp [h]; exact fun _ r hr => h.1.2 r hr
  · next h => simp at h; simp; exact fun h1 h2 h3 => absurd (h h1 h2) (by simp [h3])

/-- What fails them. -/
theorem checkOperands_eq_error {w : Limb} {unused : List Reg} {i : Instr} {e : Illegal} :
    checkOperands w unused i = .error e ↔
      e = .operand ∧ ¬ (rsvField w = 0 ∧ (∀ r ∈ unused, r = 0) ∧ i.wellFormed = true) := by
  unfold checkOperands
  split
  · next h => simp at h; simp [h]; exact fun _ r hr => h.1.2 r hr
  · next h =>
    simp at h
    constructor
    · rintro ⟨⟩; exact ⟨rfl, fun ⟨h1, h2, h3⟩ => by simp [h h1 h2] at h3⟩
    · rintro ⟨rfl, -⟩; rfl

/-! ### The decoder, opcode by opcode -/

theorem decode_nop {w : Limb} (h : opcodeField w = 0x00) :
    decode w = checkOperands w [rdField w, rs1Field w, rs2Field w, rd2Field w] .nop := by
  simp only [decode, h]

theorem decode_add {w : Limb} (h : opcodeField w = 0x01) :
    decode w = checkOperands w [rd2Field w] (.add (rdField w) (rs1Field w) (rs2Field w)) := by
  simp only [decode, h]

theorem decode_sub {w : Limb} (h : opcodeField w = 0x02) :
    decode w = checkOperands w [rd2Field w] (.sub (rdField w) (rs1Field w) (rs2Field w)) := by
  simp only [decode, h]

theorem decode_mul {w : Limb} (h : opcodeField w = 0x03) :
    decode w = checkOperands w [rd2Field w] (.mul (rdField w) (rs1Field w) (rs2Field w)) := by
  simp only [decode, h]

theorem decode_eq {w : Limb} (h : opcodeField w = 0x04) :
    decode w = checkOperands w [rdField w, rd2Field w] (.eq (rs1Field w) (rs2Field w)) := by
  simp only [decode, h]

theorem decode_iszero {w : Limb} (h : opcodeField w = 0x05) :
    decode w = checkOperands w [rdField w, rs2Field w, rd2Field w] (.iszero (rs1Field w)) := by
  simp only [decode, h]

theorem decode_isone {w : Limb} (h : opcodeField w = 0x06) :
    decode w = checkOperands w [rdField w, rs2Field w, rd2Field w] (.isone (rs1Field w)) := by
  simp only [decode, h]

theorem decode_rem {w : Limb} (h : opcodeField w = 0x10) :
    decode w = checkOperands w [rs2Field w, rd2Field w] (.rem (rdField w) (rs1Field w)) := by
  simp only [decode, h]

theorem decode_divrem {w : Limb} (h : opcodeField w = 0x11) :
    decode w = checkOperands w [rs2Field w] (.divrem (rdField w) (rd2Field w) (rs1Field w)) := by
  simp only [decode, h]

theorem decode_addm {w : Limb} (h : opcodeField w = 0x20) :
    decode w = checkOperands w [rd2Field w] (.addm (rdField w) (rs1Field w) (rs2Field w)) := by
  simp only [decode, h]

theorem decode_subm {w : Limb} (h : opcodeField w = 0x21) :
    decode w = checkOperands w [rd2Field w] (.subm (rdField w) (rs1Field w) (rs2Field w)) := by
  simp only [decode, h]

theorem decode_mulm {w : Limb} (h : opcodeField w = 0x22) :
    decode w = checkOperands w [rd2Field w] (.mulm (rdField w) (rs1Field w) (rs2Field w)) := by
  simp only [decode, h]

theorem decode_inv {w : Limb} (h : opcodeField w = 0x28) :
    decode w = checkOperands w [rs2Field w, rd2Field w] (.inv (rdField w) (rs1Field w)) := by
  simp only [decode, h]

theorem decode_minit {w : Limb} (h : opcodeField w = 0x30) :
    decode w = checkOperands w [rdField w, rs1Field w, rs2Field w, rd2Field w] .minit := by
  simp only [decode, h]

theorem decode_tomont {w : Limb} (h : opcodeField w = 0x31) :
    decode w = checkOperands w [rs2Field w, rd2Field w] (.tomont (rdField w) (rs1Field w)) := by
  simp only [decode, h]

theorem decode_frommont {w : Limb} (h : opcodeField w = 0x32) :
    decode w = checkOperands w [rs2Field w, rd2Field w] (.frommont (rdField w) (rs1Field w)) := by
  simp only [decode, h]

theorem decode_mmul {w : Limb} (h : opcodeField w = 0x33) :
    decode w = checkOperands w [rd2Field w] (.mmul (rdField w) (rs1Field w) (rs2Field w)) := by
  simp only [decode, h]

theorem decode_madd {w : Limb} (h : opcodeField w = 0x34) :
    decode w = checkOperands w [rd2Field w] (.madd (rdField w) (rs1Field w) (rs2Field w)) := by
  simp only [decode, h]

theorem decode_padd {w : Limb} (h : opcodeField w = 0x40) :
    decode w = checkOperands w [rd2Field w] (.padd (rdField w) (rs1Field w) (rs2Field w)) := by
  simp only [decode, h]

theorem decode_pdbl {w : Limb} (h : opcodeField w = 0x41) :
    decode w = checkOperands w [rs2Field w, rd2Field w] (.pdbl (rdField w) (rs1Field w)) := by
  simp only [decode, h]

/-- A decoded command is well formed. -/
theorem wellFormed_of_decode {w : Limb} {i : Instr} (h : decode w = .ok i) : i.wellFormed = true := by
  unfold decode at h
  split at h <;> dsimp only at h <;> first
    | (rw [checkOperands_eq_ok] at h; exact h.2.2.2 ▸ h.2.2.1)
    | cases h

/-- A decoded command's source registers are the word's RS1 and RS2 fields (R142). -/
theorem src_of_decode {w : Limb} {i : Instr} (h : decode w = .ok i) : rs1Field w = i.src1 ∧ rs2Field w = i.src2 := by
  unfold decode at h
  split at h <;> dsimp only at h <;> first
    | (rw [checkOperands_eq_ok] at h; obtain ⟨-, hu, -, rfl⟩ := h; simp_all [Instr.src1, Instr.src2])
    | cases h

/-- From the decoder's line for an opcode, the encoding part of that command's rule. -/
theorem encodedAs_of_checkOperands {op : Nat} {checks : Limb → Prop} {i : Limb → Instr} (unused : Limb → List Reg)
    (hd : ∀ w, opcodeField w = op → decode w = checkOperands w (unused w) (i w))
    (hc : ∀ w, checks w ↔ (∀ r ∈ unused w, r = 0) ∧ (i w).wellFormed = true) : Machine.EncodedAs op checks i := by
  intro w hw
  rw [hd w hw, checkOperands_eq_ok, checkOperands_eq_error]
  exact ⟨fun h => ⟨h.1, ((hc w).mp h.2).1, ((hc w).mp h.2).2, rfl⟩,
    fun h => ⟨rfl, fun h2 => h ⟨h2.1, (hc w).mpr h2.2⟩⟩⟩

end Sys2Proof
end

