-- ==== Sys2Proof/Laws/Ops.lean ====
section
/-! SUPPORT. What each shared operation can do, said once. -/

namespace Sys2Proof.Machine

/-! ### Serving a command -/

/-- The operands of a command being served are the present register values (R143). -/
theorem operands_of_serves {s : State} {i : Instr} (h : s.Serves i) :
    s.operands i.src1 i.src2 = s.latch i.src1 i.src2 := by
  obtain ⟨hf, hd⟩ := h
  obtain ⟨h1, h2⟩ := src_of_decode hd
  simp [State.operands, hf, h1, h2]

theorem wellFormed_of_serves {s : State} {i : Instr} (h : s.Serves i) : i.wellFormed = true :=
  wellFormed_of_decode h.2

/-- Acceptance latches the operands from the registers as they are (R141, R143). -/
theorem accept_flightInv (s : State) (w : Limb) : (s.accept w).FlightInv := by
  intro f hf
  cases hf
  exact ⟨rfl, rfl, rfl⟩

/-! ### Completion (R146) -/

@[simp] theorem complete_error (s : State) (c : ErrorCode) : s.complete (.error c) = s.afterError c.value := rfl

@[simp] theorem complete_ok (s : State) (e : Effect) :
    s.complete (.ok e) = ((s.writeRegs e.writes).writeCtx e.ctx).afterOk e.flag := rfl

/-- Every meaning ends in a next state. -/
@[simp] theorem finish_eq (s : State) (r : Result) : finish s r = .next (s.complete r) := rfl

theorem checked_nil (r : Result) : checked [] r = r := rfl

@[simp] theorem checked_true (c : ErrorCode) (l : List (Bool × ErrorCode)) (r : Result) :
    checked ((true, c) :: l) r = checked l r := rfl

@[simp] theorem checked_false (c : ErrorCode) (l : List (Bool × ErrorCode)) (r : Result) :
    checked ((false, c) :: l) r = .error c := rfl

/-- A checked result is an error of the list, or the result itself with every check passed (R144, R323). -/
theorem checked_cases (l : List (Bool × ErrorCode)) (r : Result) :
    (∃ c, checked l r = .error c ∧ (false, c) ∈ l) ∨ (checked l r = r ∧ ∀ q ∈ l, q.1 = true) := by
  induction l with
  | nil => exact .inr ⟨rfl, by simp⟩
  | cons q l ih =>
    obtain ⟨b, c⟩ := q
    cases b with
    | false => exact .inl ⟨c, rfl, by simp⟩
    | true =>
      rcases ih with ⟨c', h, hm⟩ | ⟨h, hall⟩
      · exact .inl ⟨c', h, List.mem_cons_of_mem _ hm⟩
      · exact .inr ⟨h, by simpa using hall⟩

/-- An error code is one of R320's, and not 0. -/
theorem errorCode_value (c : ErrorCode) : c.value ≠ 0 ∧ c.value.toNat ≤ 9 := by
  cases c <;> decide

/-- A completion without an error, field by field, but for the registers and the context (R146). -/
theorem completeOk_fields (s : State) (e : Effect) :
    (s.completeOk e).flight = none ∧ (s.completeOk e).done = true ∧ (s.completeOk e).err = false ∧
      (s.completeOk e).errCode = 0 ∧ (s.completeOk e).flag = e.flag ∧ (s.completeOk e).p = s.p ∧
      (s.completeOk e).curveA = s.curveA ∧ (s.completeOk e).cmd = s.cmd ∧ (s.completeOk e).irqEn = s.irqEn ∧
      (s.completeOk e).busErr = s.busErr ∧ (s.completeOk e).events = s.events ∧ (s.completeOk e).answer = s.answer := by
  obtain ⟨x, hx⟩ := writeRegs_eq s e.writes
  unfold State.completeOk
  rw [hx]
  cases e.ctx <;> simp [State.writeCtx]

/-- A completion without a context write leaves the context constants (R146). -/
theorem completeOk_ctx_none (s : State) {e : Effect} (h : e.ctx = none) :
    (s.completeOk e).ctxValid = s.ctxValid ∧ (s.completeOk e).rc = s.rc ∧ (s.completeOk e).r2 = s.r2 ∧
      (s.completeOk e).v = s.v := by
  obtain ⟨x, hx⟩ := writeRegs_eq s e.writes
  unfold State.completeOk
  rw [hx, h]
  simp [State.writeCtx]

/-- A completion with a context write installs it (R146). -/
theorem completeOk_ctx_some (s : State) {e : Effect} {c : CtxConsts} (h : e.ctx = some c) :
    (s.completeOk e).ctxValid = true ∧ (s.completeOk e).rc = c.rc ∧ (s.completeOk e).r2 = c.r2 ∧ (s.completeOk e).v = c.v := by
  unfold State.completeOk
  rw [h]
  simp [State.writeCtx]

/-- A register that no write of the effect names keeps its value at completion. -/
theorem reg_completeOk_of_not_mem (s : State) (e : Effect) {r : Reg} (h : r ∉ e.writes.map Prod.fst) :
    (s.completeOk e).reg r = s.reg r := by
  have hx : (s.completeOk e).x = (s.writeRegs e.writes).x := by
    cases hc : e.ctx <;> simp [State.completeOk, hc, State.writeCtx]
  rw [reg_congr hx]
  exact reg_writeRegs_of_not_mem _ _ _ fun rv hm he => h (List.mem_map.mpr ⟨rv, hm, he⟩)

/-! ### Host accesses -/

/-- The address map by ranges (R85). -/
theorem registerAt_cases {off : Nat} (h8 : off % 8 = 0) :
    (registerAt off = none ∧ ((0x020 ≤ off ∧ off < 0x080) ∨ (0x0D0 ≤ off ∧ off < 0x100) ∨ 0x200 ≤ off)) ∨
    (off = 0x000 ∧ registerAt off = some .id) ∨ (off = 0x008 ∧ registerAt off = some .ctrl) ∨
    (off = 0x010 ∧ registerAt off = some .status) ∨ (off = 0x018 ∧ registerAt off = some .cmd) ∨
    (0x080 ≤ off ∧ off < 0x090 ∧ ∃ l, registerAt off = some (.p l)) ∨
    (0x090 ≤ off ∧ off < 0x0A0 ∧ ∃ l, registerAt off = some (.curveA l)) ∨
    (0x0A0 ≤ off ∧ off < 0x0D0 ∧
      ((∃ l, registerAt off = some (.rc l)) ∨ (∃ l, registerAt off = some (.r2 l)) ∨ ∃ l, registerAt off = some (.v l))) ∨
    (0x100 ≤ off ∧ off < 0x200 ∧ ∃ r l, registerAt off = some (.x r l)) := by
  by_cases h : off < 0x100
  · obtain ⟨k, rfl⟩ : ∃ k, off = 8 * k := ⟨off / 8, by omega⟩
    have : k < 32 := by omega
    interval_cases k <;> simp [registerAt]
  · by_cases h2 : off < 0x200
    · right; right; right; right; right; right; right; right
      refine ⟨by omega, h2, ?_⟩
      unfold registerAt
      split <;> first | omega | (rw [if_neg h, dif_pos h2]; exact ⟨_, _, rfl⟩)
    · left
      refine ⟨?_, by omega⟩
      unfold registerAt
      split <;> first | omega | (rw [if_neg h, dif_neg h2])

/-- A read answers with the word or with ERROR (R87, R88). -/
theorem hostRead_cases (s : State) (width : Width) (off : Nat) :
    (∃ r, target width off = some r ∧ s.hostRead width off = s.respond (.read .okay (s.window r))) ∨
    (target width off = none ∧ s.hostRead width off = s.busError (.read .error 0)) := by
  unfold State.hostRead
  split <;> simp_all

/-- An access that reaches a register is 64 bits wide and aligned (R81, R82). -/
theorem target_eq_some {width : Width} {off : Nat} {r : WindowReg} (h : target width off = some r) :
    width = .w64 ∧ off % 8 = 0 ∧ registerAt off = some r := by
  unfold target at h; split at h <;> simp_all

/-- CTRL is at 0x008 only (R85). -/
theorem registerAt_ctrl {off : Nat} (h : registerAt off = some .ctrl) : off = 0x008 := by
  unfold registerAt at h
  split at h <;> first | rfl | simp at h

/-- P is at 0x080 and 0x088 only (R85). -/
theorem registerAt_p {off : Nat} {l : LimbIx} (h : registerAt off = some (.p l)) : off = 0x080 ∨ off = 0x088 := by
  unfold registerAt at h
  split at h <;> first | exact .inl rfl | exact .inr rfl | simp at h

/-- A write is answered OKAY with its effect, or ERROR (R87, R88, R90). -/
theorem hostWrite_cases (s : State) (width : Width) (off : Nat) (d : Limb) :
    (∃ r t, target width off = some r ∧ s.writeWindow r d = some t ∧ s.hostWrite width off d = t.respond (.write .okay)) ∨
    ((target width off).bind (s.writeWindow · d) = none ∧ s.hostWrite width off d = s.busError (.write .error)) := by
  unfold State.hostWrite
  split
  · next t h =>
    obtain ⟨r, hr, ht⟩ := Option.bind_eq_some_iff.mp h
    exact .inl ⟨r, t, hr, ht, rfl⟩
  · next h => exact .inr ⟨h, rfl⟩

/-- What an accepted write does, register by register (R89, R90). -/
theorem writeWindow_cases {s t : State} {r : WindowReg} {d : Limb} (h : s.writeWindow r d = some t) :
    (r = .ctrl ∧ t = s.writeCtrl d) ∨ (r = .status ∧ t = s.writeStatus d) ∨
    (s.busy = false ∧
      ((r = .cmd ∧ t = s.accept d) ∨ (∃ l, r = .p l ∧ t = s.writeP l d) ∨
       (∃ l, r = .curveA l ∧ t = { s with curveA := putLimb s.curveA l d }) ∨
       (∃ q l, r = .x q l ∧ t = s.setReg q (putLimb (s.reg q) l d)))) := by
  cases r <;> simp only [State.writeWindow] at h <;> (try split at h) <;> simp_all

/-! ### Limbs -/

theorem getLimb_limb0_toNat (v : Word128) : (getLimb v .limb0).toNat = v.toNat % 2 ^ 64 := by
  simp [getLimb, BitVec.extractLsb'_toNat]

theorem getLimb_limb1_toNat (v : Word128) : (getLimb v .limb1).toNat = v.toNat / 2 ^ 64 := by
  have := v.isLt
  simp only [getLimb, BitVec.extractLsb'_toNat, Nat.shiftRight_eq_div_pow]
  omega

theorem append_limbs_toNat (hi lo : Limb) : (hi ++ lo : Word128).toNat = hi.toNat * 2 ^ 64 + lo.toNat := by
  have := lo.isLt
  have h : (hi ++ lo : Word128).toNat = hi.toNat <<< 64 ||| lo.toNat := BitVec.toNat_append hi lo
  rw [h, ← Nat.shiftLeft_add_eq_or_of_lt this, Nat.shiftLeft_eq]

/-- Replacing a limb gives that limb, and leaves the other (R31). -/
theorem getLimb_putLimb (v : Word128) (l k : LimbIx) (d : Limb) :
    getLimb (putLimb v l d) k = if k = l then d else getLimb v k := by
  have := d.isLt
  have := v.isLt
  have h0 := getLimb_limb0_toNat v
  have h1 := getLimb_limb1_toNat v
  cases l <;> cases k <;> simp only [reduceCtorEq, if_true, if_false] <;> apply BitVec.eq_of_toNat_eq <;>
    simp only [getLimb_limb0_toNat, getLimb_limb1_toNat, putLimb, append_limbs_toNat] <;>
    simp only [getLimb] at h0 h1 <;> omega

end Sys2Proof.Machine
end

