-- ==== Sys2Proof/Laws/Arith.lean ====
section
/-! SUPPORT. The shared arithmetic meets its specification: the inverse engine gives the inverse, and the conditional subtractions
reduce. -/

namespace Sys2Proof.Machine

/-! ### Narrowing -/

@[simp] theorem lowHalf_toNat (n : Nat) : (lowHalf n).toNat = n % 2 ^ 128 := by simp [lowHalf]

theorem lowHalf_of_lt {n : Nat} (h : n < 2 ^ 128) : (lowHalf n).toNat = n := by
  rw [lowHalf_toNat, Nat.mod_eq_of_lt h]

/-- A normalized modulus is at least 2^127 (R24). -/
theorem le_of_normalized {p : Word128} (h : p.getLsbD 127 = true) : 2 ^ 127 ≤ p.toNat := by
  rw [BitVec.getLsbD] at h
  exact Nat.ge_two_pow_of_testBit h

theorem odd_of_bit {p : Word128} (h : p.getLsbD 0 = true) : p.toNat % 2 = 1 := by
  rw [BitVec.getLsbD] at h
  simpa [Nat.testBit_zero] using h

/-! ### `modP` (R17) -/

theorem modP_lt (z : Int) {p : Nat} (h : 0 < p) : modP z p < p := by
  have h1 := Int.emod_lt_of_pos z (by exact_mod_cast h : (0 : Int) < p)
  have h2 := Int.emod_nonneg z (by positivity : (p : Int) ≠ 0)
  unfold modP; omega

/-- `modP z p` as an integer is `z mod p`. -/
theorem modP_cast (z : Int) {p : Nat} (h : 0 < p) : (modP z p : Int) = z % p := by
  unfold modP
  exact Int.toNat_of_nonneg (Int.emod_nonneg z (by positivity))

/-- `modP z p` is congruent to `z`. -/
theorem modP_modEq (z : Int) {p : Nat} (h : 0 < p) : (modP z p : Int) ≡ z [ZMOD p] := by
  rw [modP_cast z h]; exact Int.mod_modEq z p

/-- `modP` depends on the class of its argument only. -/
theorem modP_congr {y z : Int} {p : Nat} (h : y ≡ z [ZMOD p]) : modP y p = modP z p := by
  unfold modP; rw [h]

/-! ### The inverse engine (R240–R244) -/

/-- The recursion of R240 gives Bézout coefficients, if the fuel exceeds the number of halvings of the product `a·b`. -/
theorem bezout_spec (n : Nat) : ∀ fuel a b : Nat, n < fuel → a ≤ b → a * b < 2 ^ n →
    (a : Int) * (bezout fuel a b).1 + b * (bezout fuel a b).2 = Nat.gcd a b := by
  induction n with
  | zero =>
    intro fuel a b hf hab hlt
    obtain ⟨fuel, rfl⟩ : ∃ k, fuel = k + 1 := ⟨fuel - 1, by omega⟩
    have ha : a = 0 := by
      rcases Nat.eq_zero_or_pos a with h | h
      · exact h
      · have := Nat.mul_le_mul h (le_trans h hab); omega
    simp [bezout, ha]
  | succ n ih =>
    intro fuel a b hf hab hlt
    obtain ⟨fuel, rfl⟩ : ∃ k, fuel = k + 1 := ⟨fuel - 1, by omega⟩
    rcases Nat.eq_zero_or_pos a with ha | ha
    · simp [bezout, ha]
    · have hr : b % a < a := Nat.mod_lt _ ha
      have hq : 1 ≤ b / a := (Nat.one_le_div_iff ha).mpr hab
      have hdiv := Nat.div_add_mod b a
      have h2 : 2 * (b % a) ≤ b := by nlinarith
      have hprod : b % a * a < 2 ^ n := by
        have : 2 * (b % a * a) ≤ a * b := by nlinarith
        rw [pow_succ] at hlt; omega
      have key := ih fuel (b % a) a (by omega) hr.le hprod
      rw [bezout, if_neg ha.ne']
      dsimp only
      rw [← Nat.gcd_rec a b] at key
      rw [← key]
      have hb : (b : Int) = a * (b / a : Nat) + (b % a : Nat) := by exact_mod_cast hdiv.symm
      generalize (bezout fuel (b % a) a).1 = x at *
      generalize (bezout fuel (b % a) a).2 = y at *
      linear_combination x * hb

/-- `invMod d m` is the inverse of `d` modulo `m` (R17), the unique value below `m` with that property. -/
theorem invMod_spec {d m : Nat} (hd : d ≤ m) (hm : 1 < m) (hw : d * m < 2 ^ 256) (hg : Nat.gcd d m = 1) :
    invMod d m < m ∧ d * invMod d m % m = 1 := by
  have hb := bezout_spec 256 257 d m (by norm_num) hd hw
  rw [hg] at hb
  refine ⟨modP_lt _ (by omega), ?_⟩
  have h1 : (d : Int) * invMod d m ≡ 1 [ZMOD m] := by
    have h2 := (modP_modEq (bezout 257 d m).1 (by omega : 0 < m)).mul_left (d : Int)
    refine h2.trans ?_
    rw [Int.modEq_iff_dvd]
    exact ⟨(bezout 257 d m).2, by push_cast at hb; linear_combination -hb⟩
  have h3 : d * invMod d m ≡ 1 [MOD m] := by
    rw [← Int.natCast_modEq_iff]; push_cast; exact h1
  rw [h3, Nat.mod_eq_of_lt hm]

/-- Two inverses below the modulus are equal (R17). -/
theorem inverse_unique {d e f m : Nat} (he : e < m) (hf : f < m) (h1 : d * e % m = 1) (h2 : d * f % m = 1) :
    e = f := by
  have h3 : e * (d * f) ≡ f * (d * e) [MOD m] := by rw [show e * (d * f) = f * (d * e) by ring]
  have hm : 1 % m = 1 := by rw [← h1, Nat.mod_mod]
  have h4 : d * f ≡ 1 [MOD m] := by unfold Nat.ModEq; rw [h2, hm]
  have h5 : d * e ≡ 1 [MOD m] := by unfold Nat.ModEq; rw [h1, hm]
  have h6 := ((h4.mul_left e).symm.trans h3).trans (h5.mul_left f)
  rw [Nat.mul_one, Nat.mul_one] at h6
  exact Nat.ModEq.eq_of_lt_of_lt h6 he hf

/-! ### Conditional subtraction (R222, R264) -/

theorem subOnce_modEq (m p : Nat) : subOnce m p ≡ m [MOD p] := by
  unfold subOnce
  split
  · next h => conv_rhs => rw [← Nat.sub_add_cancel h]
              simp [Nat.ModEq]
  · rfl

theorem subOnce_lt {m p : Nat} (h : m < p + p) : subOnce m p < p := by
  unfold subOnce; split <;> omega

/-- One conditional subtraction reduces a value below `2·p`. -/
theorem subOnce_eq_mod {m p : Nat} (h : m < p + p) : subOnce m p = m % p := by
  have h1 := subOnce_modEq m p
  rw [Nat.ModEq, Nat.mod_eq_of_lt (subOnce_lt h)] at h1
  exact h1

/-! ### Montgomery multiplication (R264, R265) -/

/-- The bounds and the congruence of R265: under a normalized `p` with `v·p ≡ −1 (mod 2^128)`, `MontMul(a, b)` is below `p` and
`MontMul(a, b)·2^128 ≡ a·b (mod p)`, for all 128-bit `a` and `b`. -/
theorem montMul_spec {a b p v : Nat} (ha : a < 2 ^ 128) (hb : b < 2 ^ 128) (hp : 2 ^ 127 ≤ p) (hp' : p < 2 ^ 128)
    (hv : v * p % 2 ^ 128 = 2 ^ 128 - 1) :
    montMul a b p v < p ∧ montMul a b p v * 2 ^ 128 ≡ a * b [MOD p] := by
  have hdvd : 2 ^ 128 ∣ a * b + a * b % 2 ^ 128 * v % 2 ^ 128 * p := by
    have h1 : a * b % 2 ^ 128 * v % 2 ^ 128 * p ≡ a * b * (v * p) [MOD 2 ^ 128] := by
      rw [← mul_assoc]
      exact ((Nat.mod_modEq _ _).trans ((Nat.mod_modEq _ _).mul_right v)).mul_right p
    have h2 : v * p + 1 ≡ 0 [MOD 2 ^ 128] := by
      unfold Nat.ModEq; omega
    rw [← Nat.modEq_zero_iff_dvd]
    refine (h1.add_left (a * b)).trans ?_
    have h3 := h2.mul_left (a * b)
    rw [mul_zero] at h3
    rwa [show a * b + a * b * (v * p) = a * b * (v * p + 1) by ring]
  obtain ⟨m, hm⟩ := hdvd
  have hs : a * b % 2 ^ 128 * v % 2 ^ 128 < 2 ^ 128 := Nat.mod_lt _ (by norm_num)
  have hmeq : (a * b + a * b % 2 ^ 128 * v % 2 ^ 128 * p) / 2 ^ 128 = m := by
    rw [hm, Nat.mul_div_cancel_left _ (by norm_num)]
  have hval : montMul a b p v = subOnce (subOnce m p) p := by
    unfold montMul; dsimp only; rw [hmeq]
  have hbound : m < 2 ^ 128 + p := by
    have h1 : a * b < 2 ^ 128 * 2 ^ 128 := Nat.mul_lt_mul'' ha hb
    have h2 : a * b % 2 ^ 128 * v % 2 ^ 128 * p ≤ 2 ^ 128 * p := Nat.mul_le_mul_right _ hs.le
    have h3 : 2 ^ 128 * m < 2 ^ 128 * (2 ^ 128 + p) := by rw [← hm, Nat.mul_add]; omega
    exact Nat.lt_of_mul_lt_mul_left h3
  rw [hval]
  constructor
  · apply subOnce_lt
    unfold subOnce; split <;> omega
  · have h1 : subOnce (subOnce m p) p ≡ m [MOD p] := (subOnce_modEq _ p).trans (subOnce_modEq m p)
    refine (h1.mul_right _).trans ?_
    rw [mul_comm m, ← hm]
    simp [Nat.ModEq]

end Sys2Proof.Machine
end

