-- ==== Sys2Proof/Laws/PerInstr.lean ====
section
/-! SUPPORT. What the encoder puts in each field of a command's word (R111, R113, R120), one lemma per command. -/

namespace Sys2Proof.Laws.EncodedFields

/-- The word of a command holds its OPCODE (`op`, as R116 lists it), its source registers in RS1 and RS2, and 0 in RSV. -/
def Holds (op : Nat) (i : Instr) : Prop :=
  opcodeField (encode i) = op ∧ rs1Field (encode i) = i.src1 ∧ rs2Field (encode i) = i.src2 ∧ rsvField (encode i) = 0

/-- The OPCODE of each command (R116). -/
def opcodeOf : Instr → Nat
  | .nop => 0x00
  | .add .. => 0x01
  | .sub .. => 0x02
  | .mul .. => 0x03
  | .eq .. => 0x04
  | .iszero .. => 0x05
  | .isone .. => 0x06
  | .rem .. => 0x10
  | .divrem .. => 0x11
  | .addm .. => 0x20
  | .subm .. => 0x21
  | .mulm .. => 0x22
  | .inv .. => 0x28
  | .minit => 0x30
  | .tomont .. => 0x31
  | .frommont .. => 0x32
  | .mmul .. => 0x33
  | .madd .. => 0x34
  | .padd .. => 0x40
  | .pdbl .. => 0x41

/-- Every command's word holds its fields. -/
def Statement (i : Instr) : Prop := Holds (opcodeOf i) i

theorem opcodeOf_lt (i : Instr) : opcodeOf i < 256 := by
  cases i <;> simp only [opcodeOf] <;> decide

/-- A packed word has its own fields. -/
theorem holds_of_packWord {i : Instr} {rd rs1 rs2 rd2 : Reg} (h : encode i = packWord (opcodeOf i) rd rs1 rs2 rd2)
    (h1 : rs1 = i.src1) (h2 : rs2 = i.src2) : Statement i := by
  have hop := opcodeOf_lt i
  unfold Statement Holds
  rw [h, opcodeField_packWord _ _ _ _ _ hop, rs1Field_packWord _ _ _ _ _ hop, rs2Field_packWord _ _ _ _ _ hop,
    rsvField_packWord _ _ _ _ _ hop]
  exact ⟨rfl, h1, h2, rfl⟩

theorem nop : Statement .nop := holds_of_packWord rfl rfl rfl

theorem add (rd rs1 rs2 : Reg) : Statement (.add rd rs1 rs2) := holds_of_packWord rfl rfl rfl

theorem sub (rd rs1 rs2 : Reg) : Statement (.sub rd rs1 rs2) := holds_of_packWord rfl rfl rfl

theorem mul (rd rs1 rs2 : Reg) : Statement (.mul rd rs1 rs2) := holds_of_packWord rfl rfl rfl

theorem eq (rs1 rs2 : Reg) : Statement (.eq rs1 rs2) := holds_of_packWord rfl rfl rfl

theorem iszero (rs1 : Reg) : Statement (.iszero rs1) := holds_of_packWord rfl rfl rfl

theorem isone (rs1 : Reg) : Statement (.isone rs1) := holds_of_packWord rfl rfl rfl

theorem rem (rd rs1 : Reg) : Statement (.rem rd rs1) := holds_of_packWord rfl rfl rfl

theorem divrem (rd rd2 rs1 : Reg) : Statement (.divrem rd rd2 rs1) := holds_of_packWord rfl rfl rfl

theorem addm (rd rs1 rs2 : Reg) : Statement (.addm rd rs1 rs2) := holds_of_packWord rfl rfl rfl

theorem subm (rd rs1 rs2 : Reg) : Statement (.subm rd rs1 rs2) := holds_of_packWord rfl rfl rfl

theorem mulm (rd rs1 rs2 : Reg) : Statement (.mulm rd rs1 rs2) := holds_of_packWord rfl rfl rfl

theorem inv (rd rs1 : Reg) : Statement (.inv rd rs1) := holds_of_packWord rfl rfl rfl

theorem minit : Statement .minit := holds_of_packWord rfl rfl rfl

theorem tomont (rd rs1 : Reg) : Statement (.tomont rd rs1) := holds_of_packWord rfl rfl rfl

theorem frommont (rd rs1 : Reg) : Statement (.frommont rd rs1) := holds_of_packWord rfl rfl rfl

theorem mmul (rd rs1 rs2 : Reg) : Statement (.mmul rd rs1 rs2) := holds_of_packWord rfl rfl rfl

theorem madd (rd rs1 rs2 : Reg) : Statement (.madd rd rs1 rs2) := holds_of_packWord rfl rfl rfl

theorem padd (rd rs1 rs2 : Reg) : Statement (.padd rd rs1 rs2) := holds_of_packWord rfl rfl rfl

theorem pdbl (rd rs1 : Reg) : Statement (.pdbl rd rs1) := holds_of_packWord rfl rfl rfl

end Sys2Proof.Laws.EncodedFields
end

