-- ==== Sys2Proof/Laws/Step.lean ====
section
/-! SUPPORT. What a meaning and a step can do, said once. -/

namespace Sys2Proof.Machine

/-- A checked result as a disjunction: an error of the list, or the effect with every check passed. -/
theorem complete_checked (s : State) (l : List (Bool × ErrorCode)) (e : Effect) :
    (∃ c, (false, c) ∈ l ∧ s.complete (checked l (.ok e)) = s.completeError c) ∨
    ((∀ q ∈ l, q.1 = true) ∧ s.complete (checked l (.ok e)) = s.completeOk e) := by
  rcases checked_cases l (.ok e) with ⟨c, h, hm⟩ | ⟨h, hall⟩
  · exact .inl ⟨c, hm, by rw [h]; rfl⟩
  · exact .inr ⟨hall, by rw [h]; rfl⟩

/-- A point command completes with a check's error, with the formula's error, or with the point. -/
theorem complete_point (s : State) (l : List (Bool × ErrorCode)) (rd : Reg) (c : Except ErrorCode Point) :
    (∃ e, (false, e) ∈ l ∧ s.complete (checked l (pointResult rd c)) = s.completeError e) ∨
    (∃ e, c = .error e ∧ s.complete (checked l (pointResult rd c)) = s.completeError e) ∨
    (∃ q, c = .ok q ∧ s.complete (checked l (pointResult rd c)) =
      s.completeOk ⟨[(rd, lowHalf q.1), (partner rd, lowHalf q.2)], noFlag, none⟩) := by
  rcases checked_cases l (pointResult rd c) with ⟨e, h, hm⟩ | ⟨h, -⟩
  · exact .inl ⟨e, hm, by rw [h]; rfl⟩
  · cases c with
    | error e => exact .inr (.inl ⟨e, rfl, by rw [h]; rfl⟩)
    | ok q => exact .inr (.inr ⟨q, rfl, by rw [h]; rfl⟩)

/-- Doubling fails only for want of an inverse (R292). -/
theorem dbl_error {p ca : Nat} {a : Point} {c : ErrorCode} (h : dbl p ca a = .error c) : c = .notInvertible := by
  unfold dbl at h
  split at h
  · cases h
  · dsimp only at h; split at h <;> cases h; rfl

theorem doublePoint_error {p ca : Nat} {a : Point} {c : ErrorCode} (h : doublePoint p ca a = .error c) :
    c = .notInvertible := by
  unfold doublePoint at h
  split at h
  · cases h
  · exact dbl_error h

theorem chord_error {p : Nat} {a b : Point} {c : ErrorCode} (h : chord p a b = .error c) : c = .notInvertible := by
  unfold chord at h
  dsimp only at h; split at h <;> cases h; rfl

/-- Addition fails for want of an inverse, or because the points share x and are neither equal nor opposite (R294). -/
theorem addPoint_error {p ca : Nat} {a b : Point} {c : ErrorCode} (h : addPoint p ca a b = .error c) :
    c = .notInvertible ∨ c = .pointDomain := by
  unfold addPoint at h
  split at h
  · cases h
  split at h
  · cases h
  split at h
  · exact .inl (chord_error h)
  split at h
  · cases h
  split at h
  · exact .inl (dbl_error h)
  · cases h; exact .inr rfl

/-- Every meaning completes, with an error (R321), or with writes to exactly the command's destinations, and with new context
constants only for a MINIT that found CTX_VALID = 0 and P normalized and odd (R146, R262). -/
theorem exec_cases (i : Instr) (s : State) :
    (∃ c, c ≠ .illegalOpcode ∧ exec i s = .next (s.completeError c)) ∨
    (∃ e, exec i s = .next (s.completeOk e) ∧ e.writes.map Prod.fst = i.dests ∧
      (e.ctx = none ∨
        (i = .minit ∧ (s.operands 0 0).ctxValid = false ∧ (s.operands 0 0).normalized = true ∧
          (s.operands 0 0).oddModulus = true ∧ e.ctx = some (contextOf (s.operands 0 0).p.toNat)))) := by
  cases i with
  | nop | add | sub | eq | iszero | isone | addm | subm => exact .inr ⟨_, rfl, rfl, .inl rfl⟩
  | minit =>
    simp only [exec, execMinit, finish_eq]
    rcases complete_checked s _ _ with ⟨c, hm, h⟩ | ⟨hall, h⟩ <;> rw [h]
    · exact .inl ⟨c, by rintro rfl; simp at hm, rfl⟩
    · simp at hall
      exact .inr ⟨_, rfl, rfl, .inr ⟨trivial, hall.1, hall.2.1, hall.2.2, rfl⟩⟩
  | padd rd rs1 rs2 =>
    simp only [exec, execPadd, finish_eq]
    rcases complete_point s _ rd _ with ⟨c, hm, h⟩ | ⟨c, hc, h⟩ | ⟨c, -, h⟩ <;> rw [h]
    · exact .inl ⟨c, by rintro rfl; simp at hm, rfl⟩
    · exact .inl ⟨c, by rintro rfl; simpa using addPoint_error hc, rfl⟩
    · exact .inr ⟨_, rfl, rfl, .inl rfl⟩
  | pdbl rd rs1 =>
    simp only [exec, execPdbl, finish_eq]
    rcases complete_point s _ rd _ with ⟨c, hm, h⟩ | ⟨c, hc, h⟩ | ⟨c, -, h⟩ <;> rw [h]
    · exact .inl ⟨c, by rintro rfl; simp at hm, rfl⟩
    · exact .inl ⟨c, by rintro rfl; simpa using doublePoint_error hc, rfl⟩
    · exact .inr ⟨_, rfl, rfl, .inl rfl⟩
  | mul | rem | divrem | mulm | inv | tomont | frommont | mmul | madd =>
    simp only [exec, execMul, execRem, execDivrem, execMulm, execInv, execTomont, execFrommont, execMmul, execMadd, montResult,
      finish_eq]
    rcases complete_checked s _ _ with ⟨c, hm, h⟩ | ⟨-, h⟩ <;> rw [h]
    · exact .inl ⟨c, by rintro rfl; simp at hm, rfl⟩
    · exact .inr ⟨_, rfl, rfl, .inl rfl⟩

/-! ### One step -/

/-- The engine's turn with a command in flight completes it (R142, R146). -/
theorem step_engine_ok {s : State} {f : Flight} {t : State} {i : Instr} (h : s.turn = .engine f t)
    (hd : decode f.word = .ok i) : step s = exec i t := by
  simp [step, h, hd]

/-- The engine's turn with an illegal word in flight completes with its error (R118). -/
theorem step_engine_error {s : State} {f : Flight} {t : State} {bad : Illegal} (h : s.turn = .engine f t)
    (hd : decode f.word = .error bad) : step s = .next (t.completeError (illegalCode bad)) := by
  simp [step, h, hd]

/-- The engine's turn ends the flight with DONE = 1 and leaves the events to come (R146). -/
theorem step_engine_done {s : State} {f : Flight} {t : State} (h : s.turn = .engine f t) :
    ∃ u, step s = .next u ∧ u.flight = none ∧ u.done = true ∧ u.events = t.events := by
  cases hd : decode f.word with
  | error bad => exact ⟨_, step_engine_error h hd, rfl, rfl, rfl⟩
  | ok i =>
    rw [step_engine_ok h hd]
    rcases exec_cases i t with ⟨c, -, h2⟩ | ⟨e, h2, -⟩
    · exact ⟨_, h2, rfl, rfl, rfl⟩
    · exact ⟨_, h2, by simp [completeOk_fields]⟩

/-- The completion event with a command in flight is the engine's turn. -/
theorem turn_before_completion {s : State} {f : Flight} (h : s.flight = some f) :
    (s.before .completion).turn = .engine f s := by
  cases s; simp_all [State.turn, State.before]

/-- A completion event with nothing in flight passes (R149). -/
theorem step_before_completion_idle {s : State} (h : s.flight = none) : step (s.before .completion) = .next s := by
  simp only [step, State.turn, State.before, h]
  cases s; simp_all

@[simp] theorem step_before_read (s : State) (width : Width) (off : Nat) :
    step (s.before (.read width off)) = .next (s.hostRead width off) := rfl

@[simp] theorem step_before_write (s : State) (width : Width) (off : Nat) (d : Limb) :
    step (s.before (.write width off d)) = .next (s.hostWrite width off d) := rfl

@[simp] theorem step_before_resetPulse (s : State) : step (s.before .resetPulse) = .next s.hardReset := rfl

/-- With no event left it is the engine's turn if a command is in flight (R149, log entry 2). -/
theorem turn_no_event {s : State} {f : Flight} (h : s.events = []) (hf : s.flight = some f) : s.turn = .engine f s := by
  simp [State.turn, h, hf]

/-- With no event left an idle block rests (R151). -/
theorem step_no_event_idle {s : State} (h : s.events = []) (hf : s.flight = none) : step s = .next s := by
  simp [step, State.turn, h, hf]

/-- A state with an event to come is `before` that event. -/
theorem eq_before {s : State} {e : Event} {es : List Event} (h : s.events = e :: es) :
    s = State.before { s with events := es } e := by
  simp [State.before, ← h]

end Sys2Proof.Machine
end

