-- ==== Sys2Proof/Tests/Slice0.lean ====
section
/-! SUPPORT. Tests of the model, with results from spec/ (each test names its vector of spec/95_test_vectors.md or its rule), and a
witness for the hypotheses of every statement. -/

namespace Sys2Proof.Tests

open Sys2Proof.Machine

set_option Elab.async false

/-! ### Helpers -/

/-- `P0` of spec/95_test_vectors.md. -/
def p0 : Word128 := 0xffffffffffffffffffffffffffffff61

/-- `M128` of spec/95_test_vectors.md. -/
def m128 : Word128 := 0xffffffffffffffffffffffffffffffff

/-- A block out of reset with a modulus, a curve coefficient and some register values. -/
def block (regs : List (Reg × Word128)) (p : Word128 := p0) (curveA : Word128 := 0) : State :=
  { State.reset.writeRegs regs with p := p, curveA := curveA }

/-- A block with the Montgomery context of `P0`, from vector MINIT-1. -/
def ctxBlock (regs : List (Reg × Word128)) : State :=
  { block regs with rc := 0x9f, r2 := 0x62c1, v := 0xb11b5efe63d2eb11b5efe63d2eb11b5f, ctxValid := true }

/-- The state after one step, from the acceptance of the word `w`. -/
def after (s : State) (w : Limb) : Option State :=
  match step (s.accept w) with
  | .next t => some t
  | .fault _ => none
  | .refused _ => none

/-- The STATUS word and the values of some registers after the command `w` in `s`. -/
def seen (s : State) (w : Limb) (regs : List Reg) : Option (Limb × List Word128) :=
  (after s w).map fun t => (t.statusWord, regs.map t.reg)

/-! ### WellFormed refuses an ill-formed term at each check (R114, R115) -/

theorem test_wf_mul_rd : (Instr.mul 1 2 3).wellFormed = false := by decide
theorem test_wf_rem_rs1 : (Instr.rem 0 3).wellFormed = false := by decide
theorem test_wf_divrem_rs1 : (Instr.divrem 0 1 3).wellFormed = false := by decide
theorem test_wf_divrem_same : (Instr.divrem 2 2 4).wellFormed = false := by decide
theorem test_wf_padd_rd : (Instr.padd 1 2 4).wellFormed = false := by decide
theorem test_wf_padd_rs1 : (Instr.padd 0 3 4).wellFormed = false := by decide
theorem test_wf_padd_rs2 : (Instr.padd 0 2 5).wellFormed = false := by decide
theorem test_wf_pdbl_rd : (Instr.pdbl 1 2).wellFormed = false := by decide
theorem test_wf_pdbl_rs1 : (Instr.pdbl 0 3).wellFormed = false := by decide
theorem test_wf_accepts : (Instr.divrem 3 5 14).wellFormed = true := by decide

/-! ### Decoding: one word per command, put together by hand from the fields of R111 and the opcodes of R116. Digits from the right:
OPCODE (two), RD, RS1, RS2, RD2, RSV (ten) -/

theorem test_decode_nop : decode 0x0000000000000000 = .ok .nop := by decide
theorem test_decode_add : decode 0x00000000000fed01 = .ok (.add 13 14 15) := by decide
theorem test_decode_sub : decode 0x0000000000032102 = .ok (.sub 1 2 3) := by decide
theorem test_decode_mul : decode 0x0000000000075e03 = .ok (.mul 14 5 7) := by decide
theorem test_decode_eq : decode 0x00000000000a9004 = .ok (.eq 9 10) := by decide
theorem test_decode_iszero : decode 0x000000000000f005 = .ok (.iszero 15) := by decide
theorem test_decode_isone : decode 0x0000000000008006 = .ok (.isone 8) := by decide
theorem test_decode_rem : decode 0x0000000000004310 = .ok (.rem 3 4) := by decide
theorem test_decode_divrem : decode 0x0000000000b0ca11 = .ok (.divrem 10 11 12) := by decide
theorem test_decode_addm : decode 0x0000000000032120 = .ok (.addm 1 2 3) := by decide
theorem test_decode_subm : decode 0x0000000000065421 = .ok (.subm 4 5 6) := by decide
theorem test_decode_mulm : decode 0x0000000000098722 = .ok (.mulm 7 8 9) := by decide
theorem test_decode_inv : decode 0x000000000000ba28 = .ok (.inv 10 11) := by decide
theorem test_decode_minit : decode 0x0000000000000030 = .ok .minit := by decide
theorem test_decode_tomont : decode 0x0000000000002131 = .ok (.tomont 1 2) := by decide
theorem test_decode_frommont : decode 0x0000000000004332 = .ok (.frommont 3 4) := by decide
theorem test_decode_mmul : decode 0x0000000000076533 = .ok (.mmul 5 6 7) := by decide
theorem test_decode_madd : decode 0x00000000000a9834 = .ok (.madd 8 9 10) := by decide
theorem test_decode_padd : decode 0x0000000000042640 = .ok (.padd 6 2 4) := by decide
theorem test_decode_pdbl : decode 0x000000000000c841 = .ok (.pdbl 8 12) := by decide

/-- Words that are no command: RSV not 0, an unused field not 0, an odd pair, equal destinations, a reserved opcode (R118). -/
theorem test_decode_refuses :
    decode 0x0000000001021001 = .error .operand ∧ decode 0x8000000000021001 = .error .operand ∧
    decode 0x0000000000100000 = .error .operand ∧ decode 0x0000000000022103 = .error .operand ∧
    decode 0x0000000000002011 = .error .operand ∧ decode 0x0000000000000007 = .error .opcode ∧
    decode 0x00000000000000ff = .error .opcode ∧ decode 0x0000000000000042 = .error .opcode := by decide

theorem test_decodeTableWord : decodeTableWord 64 0x102011 = some (.divrem 0 1 2) := by decide

/-! ### One step per command: the STATUS word and the registers the vectors give -/

theorem test_nop : seen (block []) 0x0 [0] = some (0x2, [0]) := by decide +kernel -- NOP-1
theorem test_add_carry : seen (block [(1, m128), (2, 1)]) 0x21001 [0] = some (0x12, [0]) := by decide +kernel -- ADD-2
theorem test_add_alias : seen (block [(1, 5)]) 0x11101 [1] = some (0x2, [0xa]) := by decide +kernel -- ADD-5
theorem test_sub_borrow : seen (block [(1, 0), (2, 1)]) 0x21002 [0] = some (0x12, [m128]) := by decide +kernel -- SUB-2
theorem test_mul : seen (block [(2, m128), (3, m128)]) 0x32003 [0, 1] =
    some (0x2, [1, 0xfffffffffffffffffffffffffffffffe]) := by decide +kernel -- MUL-1
theorem test_mul_odd : seen (block [(1, 0), (2, 2)]) 0x22103 [1, 2] = some (0x206, [0, 2]) := by decide +kernel -- MUL-5
theorem test_eq : seen (block [(1, 5), (2, 0x10000000000000005)]) 0x21004 [] = some (0x2, []) := by decide +kernel -- EQ-2
theorem test_iszero : seen (block [(1, 0)]) 0x1005 [] = some (0x12, []) := by decide +kernel -- ISZERO-1
theorem test_isone : seen (block [(1, 0x10000000000000001)]) 0x1006 [] = some (0x2, []) := by decide +kernel -- ISONE-2
theorem test_rem : seen (block [(2, m128), (3, m128)]) 0x2010 [0] = some (0x12, [0x62c0]) := by decide +kernel -- REM-4
theorem test_rem_small : seen (block [(2, 5)] 0x7fffffffffffffffffffffffffffffff) 0x2010 [0] =
    some (0x506, [0]) := by decide +kernel -- REM-6
theorem test_divrem : seen (block [(2, m128), (3, m128)]) 0x102011 [0, 1] =
    some (0x12, [0x9f, 0x62c0]) := by decide +kernel -- DIVREM-2
theorem test_divrem_alias : seen (block [(2, 7)]) 0x302211 [2, 3] = some (0x2, [0, 7]) := by decide +kernel -- DIVREM-7
theorem test_addm : seen (block [(1, m128), (2, m128)]) 0x21020 [0] = some (0x2, [0x9d]) := by decide +kernel -- ADDM-4
theorem test_subm : seen (block [(1, 0), (2, m128)]) 0x21021 [0] =
    some (0x2, [0xffffffffffffffffffffffffffffff62]) := by decide +kernel -- SUBM-4
theorem test_mulm : seen (block [(1, m128), (2, m128)]) 0x21022 [0] = some (0x2, [0x6184]) := by decide +kernel -- MULM-3
theorem test_inv : seen (block [(1, 0x123456789abcdef0fedcba9876543210)]) 0x1028 [0] =
    some (0x2, [0x3bd1bf2192b5772d19514d33db90d22a]) := by decide +kernel -- INV-8
theorem test_inv_zero : seen (block [(1, 0)]) 0x1028 [0] = some (0x806, [0]) := by decide +kernel -- INV-4
theorem test_minit : (after (block []) 0x30).map (fun t => (t.statusWord, t.rc, t.r2, t.v)) =
    some (0xa, 0x9f, 0x62c1, 0xb11b5efe63d2eb11b5efe63d2eb11b5f) := by decide +kernel -- MINIT-1
theorem test_minit_again : seen (ctxBlock []) 0x30 [] = some (0x40e, []) := by decide +kernel -- MINIT-5
theorem test_tomont : seen (ctxBlock [(1, 2)]) 0x1031 [0] = some (0xa, [0x13e]) := by decide +kernel -- TOMONT-2
theorem test_frommont : seen (ctxBlock [(1, 1)]) 0x1032 [0] =
    some (0xa, [0xb11b5efe63d2eb11b5efe63d2eb11af1]) := by decide +kernel -- FROMMONT-2
theorem test_mmul : seen (ctxBlock [(1, m128), (2, m128)]) 0x21033 [0] =
    some (0xa, [0xb11b5efe63d2eb11b5efe63d2eb11b8e]) := by decide +kernel -- MMUL-3
theorem test_mmul_uninit : seen (block [(1, 1), (2, 1)]) 0x21033 [0] = some (0x306, [0]) := by decide +kernel -- MMUL-6
theorem test_madd : seen (ctxBlock [(1, 0xffffffffffffffffffffffffffffff60), (2, 2)]) 0x21034 [0] =
    some (0xa, [1]) := by decide +kernel -- MADD-1
theorem test_pdbl : seen (block [(2, 2), (3, 3)] p0 2) 0x2041 [0, 1] =
    some (0x2, [0x38e38e38e38e38e38e38e38e38e38e17, 0xd097b425ed097b425ed097b425ed08f8]) := by decide +kernel -- PDBL-1
theorem test_pdbl_no_inverse : seen (block [(2, 4), (3, 1)] 0x80000000000000000000000000000000) 0x2041 [0, 1] =
    some (0x806, [0, 0]) := by decide +kernel -- PDBL-6
theorem test_padd : seen (block [(2, 2), (3, 3), (4, 1), (5, 0)] p0 2) 0x42040 [0, 1] =
    some (0x2, [6, 0xffffffffffffffffffffffffffffff52]) := by decide +kernel -- PADD-10
theorem test_padd_domain : seen (block [(2, 2), (3, 3), (4, 2), (5, 5)] p0 2) 0x42040 [0, 1] =
    some (0x906, [0, 0]) := by decide +kernel -- PADD-8

/-- A word placed for the very next step, from reset (log entry 3). -/
theorem test_withFetchWord : step (State.reset.withFetchWord 64 0x21001) =
    exec (.add 0 1 2) (State.reset.withFetchWord 64 0x21001) := rfl

/-! ### Witnesses: a concrete state and operands that meet the hypotheses of each statement, clause by clause -/

/-- The command `i` in flight, its operands latched from the registers of `s`. -/
def serving (i : Instr) (s : State) : State := s.accept (encode i)

/-- The state of an outcome, if it is one. -/
def nextOf (o : Host.Outcome State Fault Refusal) : Option State :=
  match o with
  | .next t => some t
  | .fault _ => none
  | .refused _ => none

theorem exists_next {o : Host.Outcome State Fault Refusal} {q : State → Bool} (h : (nextOf o).any q = true) :
    ∃ t, o = .next t ∧ q t = true := by
  cases o with
  | next t => exact ⟨t, rfl, by simpa [nextOf] using h⟩
  | fault r => simp [nextOf] at h
  | refused r => simp [nextOf] at h

/-- A modulus that is not normalized: 2^127 − 1. -/
def pSmall : Word128 := 0x7fffffffffffffffffffffffffffffff

/-- An even modulus that is normalized: 2^127. -/
def pEven : Word128 := 0x80000000000000000000000000000000

theorem witness_DecodeOfEncode : (Instr.divrem 3 5 14).wellFormed = true := by decide
theorem witness_EncodeOfDecode : decode 0x0000000000b0ca11 = .ok (.divrem 10 11 12) := by decide

theorem witness_OpcodeMapDecides :
    (∃ row ∈ opcodeMap, row.mnemonic = "DIVREM" ∧ (0x102011 : Limb) &&& row.mask = row.pattern ∧
      rdField 0x102011 ≠ rd2Field 0x102011) ∧
    (∃ row ∈ opcodeMap, row.mnemonic = "DIVREM" ∧ (0x2011 : Limb) &&& row.mask = row.pattern ∧
      rdField 0x2011 = rd2Field 0x2011) := by decide

/-- Both ends of every reserved range, and the opcodes beside them. -/
theorem witness_ReservedOpcodesIllegal :
    ([0x07, 0x0F, 0x12, 0x1F, 0x23, 0x27, 0x29, 0x2F, 0x35, 0x3F, 0x42, 0xFF] : List Limb).all
      (fun w => decode w == .error .opcode) = true ∧
    ([0x06, 0x10, 0x11, 0x20, 0x22, 0x28, 0x30, 0x34, 0x40, 0x41] : List Limb).all
      (fun w => decode w != .error .opcode) = true := by decide

theorem witness_StepRunsDecodedCommand :
    (serving (.add 0 1 2) (block [])).flight.map (fun f => decode f.word) = some (.ok (.add 0 1 2)) ∧
    (serving (.add 0 1 2) (block [])).events = [] := by decide

theorem witness_IllegalWordCompletes :
    State.reset.flight = none ∧ decode 0x07 = .error .opcode ∧ decode 0x22103 = .error .operand := by decide

theorem witness_CommandAccepted : State.reset.flight = none ∧ (serving .nop State.reset).busy = true := by decide

theorem witness_BusyAccessRules :
    (serving .nop State.reset).busy = true ∧
    (∀ off ∈ [0x018, 0x080, 0x098, 0x100, 0x1F8], off % 8 = 0 ∧
      (off = 0x018 ∨ (0x080 ≤ off ∧ off < 0x0A0) ∨ (0x100 ≤ off ∧ off < 0x200))) ∧
    registerAt 0x000 = some .id ∧ registerAt 0x1F8 = some (.x 15 .limb1) ∧
    Event.read .w64 0x000 ≠ .completion ∧ (Event.read .w64 0x000).resets = false := by decide

theorem witness_WritingPClearsContext : (ctxBlock []).flight = none := by decide

theorem witness_LimbWriteChangesOneWord :
    State.reset.flight = none ∧ registerAt 0x080 = some (.p .limb0) ∧ registerAt 0x098 = some (.curveA .limb1) ∧
    registerAt 0x100 = some (.x 0 .limb0) ∧ registerAt 0x1F8 = some (.x 15 .limb1) ∧
    WindowReg.p .limb1 ≠ .p .limb0 ∧ WindowReg.x 0 .limb1 ≠ .x 0 .limb0 ∧ WindowReg.p .limb1 ≠ .status := by decide

theorem witness_CtrlWriteAndRead :
    (2 : Limb).getLsbD 0 = false ∧ (3 : Limb).getLsbD 0 = true ∧ State.reset.irqEn = false ∧
    (nextOf (step (State.reset.before (.write .w64 0x008 2)))).any (fun t => t.irqEn) = true := by decide

theorem witness_ResetValues : Event.resetPulse.resets = true ∧ (Event.write .w64 0x008 0x3).resets = true := by decide

theorem witness_ResetCancelsCommand :
    Event.resetPulse.resets = true ∧ (Event.write .w64 0x008 1).resets = true ∧
    (Event.write .w64 0x008 2).resets = false ∧ (Event.write .w32 0x008 1).resets = false := by decide

/-- Every clause at the ends of its ranges. -/
theorem witness_ErrorAccessSetsBuserrOnly :
    Width.w32 ≠ .w64 ∧ 0x004 % 8 ≠ 0 ∧
    (∀ off ∈ [0x020, 0x078, 0x0D0, 0x0F8, 0x200],
      (0x020 ≤ off ∧ off < 0x080) ∨ (0x0D0 ≤ off ∧ off < 0x100) ∨ 0x200 ≤ off) ∧
    (∀ off ∈ [0x000, 0x0A0, 0x0C8], off < 0x008 ∨ (0x0A0 ≤ off ∧ off < 0x0D0)) ∧
    (serving .nop State.reset).busy = true := by decide

theorem witness_AcceptedCommandEnds : (serving .minit State.reset).busy = true := by decide

/-- An acceptance, a completion at its event and one after the last event, and a reset of a busy block. -/
theorem witness_BusyTransitions :
    (nextOf (step (State.reset.before (.write .w64 0x018 0x30)))).any (fun t => t.busy) = true ∧
    (nextOf (step ((serving .nop State.reset).before .completion))).any (fun t => !t.busy) = true ∧
    (nextOf (step (serving .nop State.reset))).any (fun t => !t.busy) = true ∧
    (nextOf (step ((serving .nop State.reset).before .resetPulse))).any (fun t => !t.busy) = true ∧
    State.reset.busy = false ∧ (serving .nop State.reset).busy = true ∧ Event.resetPulse.resets = true := by decide +kernel

theorem witness_HostEventFrame : Event.write .w64 0x018 0x0 ≠ .completion ∧
    (Event.write .w64 0x018 0x0).resets = false ∧
    (nextOf (step (State.reset.before (.write .w64 0x018 0x0)))).isSome = true := by decide

theorem witness_CtxValidTransitions :
    (∃ t, step (serving .minit (block [])) = .next t ∧ (!(serving .minit (block [])).ctxValid && t.ctxValid) = true) ∧
    (∃ t, step ((ctxBlock []).before (.write .w64 0x088 0)) = .next t ∧
      ((ctxBlock []).ctxValid && !t.ctxValid) = true) :=
  ⟨exists_next (q := fun t => !(serving .minit (block [])).ctxValid && t.ctxValid) (by decide +kernel),
    exists_next (q := fun t => (ctxBlock []).ctxValid && !t.ctxValid) (by decide +kernel)⟩

theorem witness_ErrorCompletionIsPrecise : ∃ t, exec .minit (serving .minit (ctxBlock [])) = .next t ∧ t.err = true :=
  exists_next (q := State.err) (by decide +kernel)

theorem witness_CompletionFrame :
    (∃ t, exec (.add 0 1 2) (serving (.add 0 1 2) (block [])) = .next t ∧ (fun _ => true) t = true) ∧
    Instr.add 0 1 2 ≠ .minit ∧ (3 : Reg) ∉ (Instr.add 0 1 2).dests :=
  ⟨exists_next (q := fun _ => true) (by decide +kernel), by decide, by decide⟩

theorem witness_ResultDependsOnNamedSources :
    (serving (.add 0 1 2) (block [(1, 5), (2, 6)])).Serves (.add 0 1 2) ∧
    (serving (.add 0 1 2) (block [(1, 5), (2, 6), (3, 9)])).Serves (.add 0 1 2) ∧
    (∀ r ∈ (Instr.add 0 1 2).sources, (block [(1, 5), (2, 6)]).reg r = (block [(1, 5), (2, 6), (3, 9)]).reg r) := by decide

/-- A word of each opcode with a bit of RSV set fails its checks; the decode tests above are words that pass them. -/
theorem witness_EncodedAs :
    ([0x00, 0x01, 0x02, 0x03, 0x04, 0x05, 0x06, 0x10, 0x11, 0x20, 0x21, 0x22, 0x28, 0x30, 0x31, 0x32, 0x33, 0x34, 0x40,
        0x41] : List Nat).all
      (fun op => opcodeField (BitVec.ofNat 64 (op + 2 ^ 24)) == op && decode (BitVec.ofNat 64 (op + 2 ^ 24)) == .error .operand) =
      true := by decide +kernel

theorem witness_AddCompletes : (serving (.add 0 1 2) (block [(1, m128), (2, 1)])).Serves (.add 0 1 2) := by decide
theorem witness_SubCompletes : (serving (.sub 0 1 2) (block [(1, 0), (2, 1)])).Serves (.sub 0 1 2) := by decide
theorem witness_MulCompletes : (serving (.mul 0 2 3) (block [(2, m128)])).Serves (.mul 0 2 3) := by decide

/-- The ADD, and later the SUB, of a wrapping sum. -/
theorem witness_SubUndoesAdd :
    (serving (.add 0 1 2) (block [(1, m128), (2, 3)])).Serves (.add 0 1 2) ∧
    (∃ t, exec (.add 0 1 2) (serving (.add 0 1 2) (block [(1, m128), (2, 3)])) = .next t ∧ (t.reg 0 == 2) = true) ∧
    (serving (.sub 3 0 2) (block [(0, 2), (2, 3)])).Serves (.sub 3 0 2) ∧
    (serving (.sub 3 0 2) (block [(0, 2), (2, 3)])).reg 0 = 2 :=
  ⟨by decide, exists_next (q := fun t => t.reg 0 == 2) (by decide +kernel), by decide, by decide⟩

theorem witness_TestsComplete :
    (serving (.eq 1 2) (block [])).Serves (.eq 1 2) ∧ (serving (.iszero 1) (block [])).Serves (.iszero 1) ∧
    (serving (.isone 1) (block [])).Serves (.isone 1) := by decide

theorem witness_RemCompletes :
    (serving (.rem 0 2) (block [])).Serves (.rem 0 2) ∧ (block []).p.getLsbD 127 = true ∧
    (serving (.rem 0 2) (block [] pSmall)).Serves (.rem 0 2) ∧ (block [] pSmall).p.getLsbD 127 = false := by decide

theorem witness_DivremCompletes :
    (serving (.divrem 0 1 2) (block [])).Serves (.divrem 0 1 2) ∧ (block []).p.getLsbD 127 = true ∧
    (serving (.divrem 0 1 2) (block [] pSmall)).Serves (.divrem 0 1 2) ∧
    (block [] pSmall).p.getLsbD 127 = false := by decide

theorem witness_DivisionLaw :
    (serving (.divrem 0 1 2) (block [(2, m128), (3, m128)])).Serves (.divrem 0 1 2) ∧
    ∃ t, exec (.divrem 0 1 2) (serving (.divrem 0 1 2) (block [(2, m128), (3, m128)])) = .next t ∧ (!t.err) = true :=
  ⟨by decide, exists_next (q := fun t => !t.err) (by decide +kernel)⟩

theorem witness_ReducerCrossCheck :
    (serving (.rem 0 2) (block [(2, m128), (3, 5)])).Serves (.rem 0 2) ∧
    (serving (.divrem 0 1 4) (block [(4, m128), (5, 5)])).Serves (.divrem 0 1 4) ∧
    (∃ t, exec (.rem 0 2) (serving (.rem 0 2) (block [(2, m128), (3, 5)])) = .next t ∧ (!t.err) = true) ∧
    (block [(2, m128), (3, 5)]).reg (partner 2) = (block [(4, m128), (5, 5)]).reg (partner 4) ∧
    (block [(2, m128), (3, 5)]).reg (partner 2) < p0 :=
  ⟨by decide, by decide, exists_next (q := fun t => !t.err) (by decide +kernel), by decide, by decide +kernel⟩

theorem witness_AddmCompletes : (serving (.addm 0 1 2) (block [])).Serves (.addm 0 1 2) := by decide
theorem witness_SubmCompletes : (serving (.subm 0 1 2) (block [])).Serves (.subm 0 1 2) := by decide

theorem witness_MulmCompletes :
    (serving (.mulm 0 1 2) (block [])).Serves (.mulm 0 1 2) ∧ (block []).p.getLsbD 127 = true ∧
    (serving (.mulm 0 1 2) (block [] pSmall)).Serves (.mulm 0 1 2) ∧ (block [] pSmall).p.getLsbD 127 = false := by decide

theorem witness_ModularClosure :
    (serving (.addm 0 1 2) (block [(1, 7), (2, 8)] 10)).Serves (.addm 0 1 2) ∧
    (serving (.subm 0 1 2) (block [(1, 7), (2, 8)] 10)).Serves (.subm 0 1 2) ∧
    (serving (.mulm 0 1 2) (block [(1, 7), (2, 8)])).Serves (.mulm 0 1 2) ∧
    (block [(1, 7), (2, 8)] 10).reg 2 < 10 ∧ (block [(1, 7), (2, 8)]).reg 2 < p0 ∧ p0.getLsbD 127 = true := by decide

/-- Each of INV's four outcomes has an operand: a small modulus, a value at P, a value with a common factor, and 2. -/
theorem witness_InvCompletes :
    [pSmall, pEven, p0].all (fun q => decide ((serving (.inv 0 1) (block [(1, 2)] q)).Serves (.inv 0 1))) = true ∧
    (serving (.inv 0 1) (block [(1, p0)])).Serves (.inv 0 1) ∧ pSmall.getLsbD 127 = false ∧
    pEven.getLsbD 127 = true ∧ p0.getLsbD 127 = true ∧ p0.toNat ≤ ((block [(1, p0)]).reg 1).toNat ∧
    (2 < pEven.toNat ∧ Nat.gcd 2 pEven.toNat ≠ 1) ∧ (2 < p0.toNat ∧ Nat.gcd 2 p0.toNat = 1) := by decide +kernel

/-- Vector INV-1, and the MULM of its operand and its result. -/
theorem witness_InverseLaw :
    (serving (.inv 0 1) (block [(1, 2)])).Serves (.inv 0 1) ∧
    (∃ t, exec (.inv 0 1) (serving (.inv 0 1) (block [(1, 2)])) = .next t ∧
      (!t.err && t.reg 0 == 0x7fffffffffffffffffffffffffffffb1) = true) ∧
    (serving (.mulm 3 1 0) (block [(1, 2), (0, 0x7fffffffffffffffffffffffffffffb1)])).Serves (.mulm 3 1 0) :=
  ⟨by decide, exists_next (q := fun t => !t.err && t.reg 0 == 0x7fffffffffffffffffffffffffffffb1) (by decide +kernel),
    by decide⟩

theorem witness_MinitCompletes :
    [pSmall, pEven, p0].all (fun q => decide ((serving .minit (block [] q)).Serves .minit)) = true ∧
    (block [] pSmall).ctxValid = false ∧ (block [] pEven).ctxValid = false ∧ (block []).ctxValid = false ∧
    (serving .minit (ctxBlock [])).Serves .minit ∧ (ctxBlock []).ctxValid = true ∧ pSmall.getLsbD 127 = false ∧
    (pEven.getLsbD 127 = true ∧ pEven.getLsbD 0 = false) ∧ (p0.getLsbD 127 = true ∧ p0.getLsbD 0 = true) := by decide +kernel

/-- The context of `P0` is one MINIT leaves. -/
theorem ctxBlock_ctxInv (regs : List (Reg × Word128)) : (ctxBlock regs).CtxInv :=
  ⟨fun _ => by simp only [ctxBlock, block]; decide +kernel, fun h => by simp [ctxBlock] at h⟩

theorem witness_MontgomeryProductsComplete :
    (serving (.mmul 0 1 2) (ctxBlock [])).Serves (.mmul 0 1 2) ∧ (serving (.tomont 0 1) (ctxBlock [])).Serves (.tomont 0 1) ∧
    (serving (.frommont 0 1) (ctxBlock [])).Serves (.frommont 0 1) ∧ (ctxBlock []).ctxValid = true ∧
    (serving (.mmul 0 1 2) (block [])).Serves (.mmul 0 1 2) ∧ (block []).ctxValid = false := by decide

theorem witness_MaddCompletes :
    (serving (.madd 0 1 2) (ctxBlock [])).Serves (.madd 0 1 2) ∧ (ctxBlock []).ctxValid = true ∧
    (serving (.madd 0 1 2) (block [])).Serves (.madd 0 1 2) ∧ (block []).ctxValid = false := by decide

theorem witness_MontgomeryResults :
    (serving (.mmul 0 1 2) (ctxBlock [])).CtxInv ∧ (ctxBlock []).ctxValid = true ∧
    (serving (.mmul 0 1 2) (ctxBlock [])).Serves (.mmul 0 1 2) ∧
    (serving (.tomont 0 1) (ctxBlock [])).Serves (.tomont 0 1) ∧
    (serving (.frommont 0 1) (ctxBlock [])).Serves (.frommont 0 1) :=
  ⟨ctxBlock_ctxInv [], by decide, by decide, by decide, by decide⟩

theorem witness_UninitializedContextFails :
    (serving (.tomont 0 1) (block [])).Serves (.tomont 0 1) ∧ (serving (.frommont 0 1) (block [])).Serves (.frommont 0 1) ∧
    (serving (.mmul 0 1 2) (block [])).Serves (.mmul 0 1 2) ∧ (serving (.madd 0 1 2) (block [])).Serves (.madd 0 1 2) ∧
    (block []).ctxValid = false := by decide

/-- TOMONT of 2 and 3, their MMUL, and FROMMONT of 0x13e and of the product's form 0x3ba (vectors TOMONT-2, MMUL-2). -/
theorem witness_MontgomeryLaws :
    (serving (.tomont 0 1) (ctxBlock [(1, 2)])).CtxInv ∧ (serving (.tomont 0 1) (ctxBlock [(1, 2)])).Serves (.tomont 0 1) ∧
    (∃ t, exec (.tomont 0 1) (serving (.tomont 0 1) (ctxBlock [(1, 2)])) = .next t ∧ (t.reg 0 == 0x13e) = true) ∧
    (serving (.frommont 3 0) (ctxBlock [(0, 0x13e)])).Serves (.frommont 3 0) ∧
    (serving (.tomont 4 5) (ctxBlock [(5, 3)])).Serves (.tomont 4 5) ∧
    (∃ t, exec (.tomont 4 5) (serving (.tomont 4 5) (ctxBlock [(5, 3)])) = .next t ∧ (t.reg 4 == 0x1dd) = true) ∧
    (serving (.mmul 6 0 4) (ctxBlock [(0, 0x13e), (4, 0x1dd)])).Serves (.mmul 6 0 4) ∧
    (∃ t, exec (.mmul 6 0 4) (serving (.mmul 6 0 4) (ctxBlock [(0, 0x13e), (4, 0x1dd)])) = .next t ∧
      (t.reg 6 == 0x3ba) = true) ∧
    (serving (.frommont 3 0) (ctxBlock [(0, 0x3ba)])).Serves (.frommont 3 0) ∧
    (serving (.mulm 7 1 5) (ctxBlock [(1, 2), (5, 3)])).Serves (.mulm 7 1 5) ∧ (3 : Word128) < p0 :=
  ⟨ctxBlock_ctxInv [(1, 2)], by decide, exists_next (q := fun t => t.reg 0 == 0x13e) (by decide +kernel), by decide,
    by decide, exists_next (q := fun t => t.reg 4 == 0x1dd) (by decide +kernel), by decide,
    exists_next (q := fun t => t.reg 6 == 0x3ba) (by decide +kernel), by decide, by decide, by decide⟩

theorem witness_MmulIdentity :
    (serving (.tomont 0 1) (ctxBlock [(1, 1)])).CtxInv ∧ (serving (.tomont 0 1) (ctxBlock [(1, 1)])).Serves (.tomont 0 1) ∧
    (serving (.mmul 0 1 2) (ctxBlock [(1, m128), (2, 0x9f)])).CtxInv ∧
    (serving (.mmul 0 1 2) (ctxBlock [(1, m128), (2, 0x9f)])).Serves (.mmul 0 1 2) ∧
    (ctxBlock [(1, m128), (2, 0x9f)]).reg 2 = (ctxBlock []).rc :=
  ⟨ctxBlock_ctxInv [(1, 1)], by decide, ctxBlock_ctxInv [(1, m128), (2, 0x9f)], by decide, by decide⟩

/-- The checks of PADD and PDBL that fail: a modulus that is not normalized, and a coordinate at or above P. -/
theorem witness_pointChecks :
    [pSmall, p0].all (fun q => decide ((serving (.padd 0 2 4) (block [(2, m128)] q)).Serves (.padd 0 2 4)) &&
      decide ((serving (.pdbl 0 2) (block [(2, m128)] q)).Serves (.pdbl 0 2))) = true ∧
    pSmall.getLsbD 127 = false ∧ p0.getLsbD 127 = true ∧ ¬ m128 < p0 := by decide +kernel

/-- The doubling of a point with y = 0, of one whose 2·y has no inverse modulo 2^127, and of `G` (vectors PDBL-1, 2, 6). -/
theorem witness_PdblCompletes :
    (serving (.pdbl 0 2) (block [(2, 1)] p0 2)).Serves (.pdbl 0 2) ∧
    ((serving (.pdbl 0 2) (block [(2, 4), (3, 1)] pEven)).Serves (.pdbl 0 2) ∧ Nat.gcd (2 * 1 % pEven.toNat) pEven.toNat ≠ 1) ∧
    ((serving (.pdbl 0 2) (block [(2, 2), (3, 3)] p0 2)).Serves (.pdbl 0 2) ∧ Nat.gcd (2 * 3 % p0.toNat) p0.toNat = 1) ∧
    p0.getLsbD 127 = true ∧ pEven.getLsbD 127 = true ∧ (4 : Word128) < pEven ∧ (3 : Word128) < p0 := by decide +kernel

/-- Operands for each case of PADD: infinity on either side, a chord with and without an inverse, opposite points, a doubling with
and without an inverse, and a point domain error. -/
theorem witness_PaddCompletes :
    (∀ l ∈ ([[(4, 2), (5, 3)], [(2, 2), (3, 3)], [(2, 2), (3, 3), (4, 1)], [(2, 2), (3, 3), (4, 2), (5, p0 - 3)],
        [(2, 2), (3, 3), (4, 2), (5, 3)], [(2, 2), (3, 3), (4, 2), (5, 5)]] : List (List (Reg × Word128))),
      (serving (.padd 0 2 4) (block l p0 2)).Serves (.padd 0 2 4)) ∧
    (∀ l ∈ ([[(2, 4), (3, 1), (4, 2), (5, 1)], [(2, 4), (3, 1), (4, 4), (5, 1)]] : List (List (Reg × Word128))),
      (serving (.padd 0 2 4) (block l pEven)).Serves (.padd 0 2 4)) ∧
    (((1 : Nat) : Int) = (2 - 1 : Int) % p0.toNat ∧ Nat.gcd 1 p0.toNat = 1) ∧
    (((2 : Nat) : Int) = (4 - 2 : Int) % pEven.toNat ∧ Nat.gcd 2 pEven.toNat ≠ 1) ∧
    (3 + (p0 - 3).toNat) % p0.toNat = 0 ∧ (3 + 3) % p0.toNat ≠ 0 ∧ (3 + 5) % p0.toNat ≠ 0 ∧
    Nat.gcd (2 * 3 % p0.toNat) p0.toNat = 1 ∧ Nat.gcd (2 * 1 % pEven.toNat) pEven.toNat ≠ 1 ∧
    (1 + 1) % pEven.toNat ≠ 0 := by decide +kernel

theorem witness_PointLaws : 2 ^ 127 ≤ p0.toNat ∧ p0.toNat < 2 ^ 128 ∧ p0.toNat % 2 = 1 ∧ 2 < p0.toNat ∧ 3 < p0.toNat := by
  decide +kernel

theorem witness_PointCommandsCompute :
    (serving (.padd 0 2 4) (block [(2, 2), (3, 3), (4, 1)] p0 2)).Serves (.padd 0 2 4) ∧
    (serving (.pdbl 0 2) (block [(2, 2), (3, 3), (4, 1)] p0 2)).Serves (.pdbl 0 2) ∧
    p0.getLsbD 127 = true ∧ (3 : Word128) < p0 := by decide +kernel

theorem witness_PaddSymmetric :
    (serving (.padd 0 2 4) (block [(2, 2), (3, 3), (4, 1)] p0 2)).Serves (.padd 0 2 4) ∧
    (serving (.padd 0 4 2) (block [(2, 2), (3, 3), (4, 1)] p0 2)).Serves (.padd 0 4 2) ∧
    (serving (.padd 0 4 2) (block [(2, 2), (3, 3), (4, 1)] p0 2)).x =
      (serving (.padd 0 2 4) (block [(2, 2), (3, 3), (4, 1)] p0 2)).x := by decide

/-- A prime that is normalized, `81·2^121 + 1`, by Lucas's test with base 5. -/
theorem prime_example : Nat.Prime 0xa2000000000000000000000000000001 := by
  refine lucas_primality _ (5 : ZMod 0xa2000000000000000000000000000001) ?_ ?_
  · norm_num
    reduce_mod_char
  · intro q hq hd
    have h : q = 2 ∨ q = 3 := by
      have h2 : q ∣ 2 ^ 121 * 3 ^ 4 := by norm_num at hd ⊢; exact hd
      rcases hq.dvd_mul.mp h2 with h3 | h3
      · exact .inl ((Nat.prime_dvd_prime_iff_eq hq Nat.prime_two).mp (hq.dvd_of_dvd_pow h3))
      · exact .inr ((Nat.prime_dvd_prime_iff_eq hq Nat.prime_three).mp (hq.dvd_of_dvd_pow h3))
    rcases h with rfl | rfl
    all_goals
      norm_num
      reduce_mod_char
      decide

/-- The point (2, 3) of `y² = x³ + 2·x − 3` over that prime. -/
theorem witness_PaddStaysOnCurve :
    Nat.Prime 0xa2000000000000000000000000000001 ∧ 2 ^ 127 ≤ 0xa2000000000000000000000000000001 ∧
    0xa2000000000000000000000000000001 < 2 ^ 128 ∧ 0xa1fffffffffffffffffffffffffffffe % 0xa2000000000000000000000000000001 ≠ 0 ∧
    3 * 3 % 0xa2000000000000000000000000000001 =
      (2 * 2 * 2 + 2 * 2 + 0xa1fffffffffffffffffffffffffffffe) % 0xa2000000000000000000000000000001 :=
  ⟨prime_example, by norm_num, by norm_num, by norm_num, by norm_num⟩

/-- The same curve is not singular, and the sums of its point (2, 3) with itself exist. -/
theorem witness_PaddAssociative :
    (4 * 2 ^ 3 + 27 * 0xa1fffffffffffffffffffffffffffffe ^ 2) % 0xa2000000000000000000000000000001 ≠ 0 ∧
    (addPoint 0xa2000000000000000000000000000001 2 (2, 3) (2, 3)).isOk = true := by decide +kernel

/-- A reachable state with the invariant, a command in flight and a valid context. -/
theorem witness_StepKeepsInvariant :
    (serving (.mmul 0 1 2) (ctxBlock [])).Inv ∧ (nextOf (step (serving (.mmul 0 1 2) (ctxBlock [])))).isSome = true :=
  ⟨⟨accept_flightInv _ _, ctxBlock_ctxInv [], by decide, by decide⟩, by decide +kernel⟩

theorem witness_InvariantServesCommand :
    (serving (.mmul 0 1 2) (ctxBlock [])).flight.map (fun f => decode f.word) = some (.ok (.mmul 0 1 2)) := by decide

end Sys2Proof.Tests
end

section
/-! SUPPORT. What a host access that reaches a register, a reset and a step do to the pieces of block state of spec/10_state.md,
said once; after it the statements about that state. -/

namespace Sys2Proof.Machine

/-! ### Host accesses that reach a register (R81, R82, R85) -/

theorem target_w64 {off : Nat} (h8 : off % 8 = 0) : target .w64 off = registerAt off := by
  simp [target, h8]

/-- A read of a register of the window is answered OKAY with its word (R87). -/
theorem hostRead_of_registerAt (s : State) {off : Nat} {r : WindowReg} (h8 : off % 8 = 0) (hr : registerAt off = some r) :
    s.hostRead .w64 off = s.respond (.read .okay (s.window r)) := by
  simp [State.hostRead, target_w64 h8, hr]

/-- A write that its register takes is answered OKAY and has that register's effect (R87). -/
theorem hostWrite_of_registerAt {s t : State} {off : Nat} {r : WindowReg} {d : Limb} (h8 : off % 8 = 0)
    (hr : registerAt off = some r) (hw : s.writeWindow r d = some t) :
    s.hostWrite .w64 off d = t.respond (.write .okay) := by
  simp [State.hostWrite, target_w64 h8, hr, hw]

/-- CMD is at 0x018 only (R85). -/
theorem registerAt_cmd {off : Nat} (h : registerAt off = some .cmd) : off = 0x018 := by
  unfold registerAt at h
  split at h <;> simp at h
  rfl

theorem busy_eq_false_iff (s : State) : s.busy = false ↔ s.flight = none := by
  simp [State.busy]

theorem busy_eq_true_iff (s : State) : s.busy = true ↔ ∃ f, s.flight = some f := by
  simp [State.busy, Option.isSome_iff_exists]

theorem busy_congr {s t : State} (h : t.flight = s.flight) : t.busy = s.busy := by
  simp [State.busy, h]

/-! ### The words of STATUS and CTRL (R46, R48) -/

/-- The STATUS word as a binary numeral, bit 0 outermost: the fields of R48, two zero bits, and ERRCODE. -/
def State.statusNumeral (s : State) : Nat :=
  Nat.bit s.busy (Nat.bit s.done (Nat.bit s.err (Nat.bit s.ctxValid (Nat.bit s.flag (Nat.bit s.busErr
    (Nat.bit false (Nat.bit false s.errCode.toNat)))))))

theorem statusWord_eq_ofNat (s : State) : s.statusWord = BitVec.ofNat 64 s.statusNumeral := by
  have hbit (b : Bool) : bit b = b.toNat := by cases b <;> rfl
  simp only [State.statusWord, State.statusNumeral, hbit, Nat.bit_val, Bool.toNat_false]
  congr 1
  ring

theorem statusWord_getLsbD (s : State) {k : Nat} (hk : k < 64) : s.statusWord.getLsbD k = s.statusNumeral.testBit k := by
  rw [statusWord_eq_ofNat, BitVec.getLsbD_ofNat, decide_eq_true hk, Bool.true_and]

/-- From bit 8 up the STATUS word is ERRCODE. -/
theorem statusWord_getLsbD_add_eight (s : State) (k : Nat) : s.statusWord.getLsbD (k + 8) = s.errCode.getLsbD k := by
  by_cases hk : k + 8 < 64
  · rw [statusWord_getLsbD s hk]
    simp only [State.statusNumeral, Nat.testBit_bit_succ, BitVec.testBit_toNat]
  · rw [BitVec.getLsbD_of_ge _ _ (by omega), BitVec.getLsbD_of_ge _ _ (by omega)]

theorem ctrlWord_eq_ite (s : State) : s.ctrlWord = if s.irqEn then 2 else 0 := by
  cases h : s.irqEn <;> simp [State.ctrlWord, bit, h]

/-! ### Reset (R62, R350, R351) -/

theorem reg_reset (r : Reg) : State.reset.reg r = 0 := by
  simp [State.reg, State.reset]

/-- A reset event is a pulse of the reset input or a CTRL write with bit 0 set. -/
theorem resets_cases {e : Event} (h : e.resets = true) :
    e = .resetPulse ∨ ∃ d : Limb, e = .write .w64 0x008 d ∧ d.getLsbD 0 = true := by
  cases e with
  | resetPulse => exact .inl rfl
  | write width off d =>
    simp only [Event.resets, Bool.and_eq_true, beq_iff_eq] at h
    obtain ⟨⟨rfl, rfl⟩, hd⟩ := h
    exact .inr ⟨d, rfl, hd⟩
  | read | completion => simp [Event.resets] at h

theorem hostWrite_ctrl (s : State) (d : Limb) : s.hostWrite .w64 0x008 d = (s.writeCtrl d).respond (.write .okay) :=
  hostWrite_of_registerAt rfl rfl rfl

/-- After a reset event all of the block's state is at its reset value, whatever it was. -/
theorem step_before_of_resets (s : State) {e : Event} (h : e.resets = true) :
    ∃ a, step (s.before e) = .next { State.reset with events := s.events, answer := a } := by
  obtain rfl | ⟨d, rfl, hd⟩ := resets_cases h
  · exact ⟨none, rfl⟩
  · refine ⟨some (.write .okay), ?_⟩
    rw [step_before_write, hostWrite_ctrl, State.writeCtrl, if_pos hd]
    rfl

/-! ### What a step does to the in-flight command and to CTX_VALID -/

/-- A host write that is no soft reset, no accepted command and no write of P leaves the in-flight command and CTX_VALID. -/
theorem hostWrite_flight_ctxValid (s : State) (width : Width) (off : Nat) (d : Limb) :
    (Event.write width off d).resets = true ∨
    (width = .w64 ∧ off = 0x018 ∧ s.flight = none ∧ s.hostWrite width off d = (s.accept d).respond (.write .okay)) ∨
    (width = .w64 ∧ (off = 0x080 ∨ off = 0x088) ∧
      ∃ l, s.hostWrite width off d = (s.writeP l d).respond (.write .okay)) ∨
    ((s.hostWrite width off d).flight = s.flight ∧ (s.hostWrite width off d).ctxValid = s.ctxValid) := by
  obtain ⟨r, t, hr, ht, heq⟩ | ⟨-, heq⟩ := hostWrite_cases s width off d
  case inr => exact .inr (.inr (.inr (by simp [heq])))
  obtain ⟨rfl, -, hat⟩ := target_eq_some hr
  rw [heq]
  obtain ⟨rfl, rfl⟩ | ⟨rfl, rfl⟩ | ⟨hidle, h⟩ := writeWindow_cases ht
  · obtain rfl := registerAt_ctrl hat
    by_cases hd : d.getLsbD 0 = true
    · exact .inl (by simp [Event.resets, hd])
    · rw [State.writeCtrl, if_neg hd]
      exact .inr (.inr (.inr ⟨rfl, rfl⟩))
  · exact .inr (.inr (.inr (by simp)))
  · obtain ⟨rfl, rfl⟩ | ⟨l, rfl, rfl⟩ | ⟨l, rfl, rfl⟩ | ⟨q, l, rfl, rfl⟩ := h
    · exact .inr (.inl ⟨rfl, registerAt_cmd hat, (busy_eq_false_iff s).mp hidle, rfl⟩)
    · exact .inr (.inr (.inl ⟨rfl, registerAt_p hat, l, rfl⟩))
    · exact .inr (.inr (.inr (by simp)))
    · exact .inr (.inr (.inr (by simp)))

/-- Why a step from `s` to `t` changes the in-flight command or CTX_VALID, if it does. -/
inductive StepCause (s t : State) : Prop
  /-- The in-flight command completes, at its event or after the last one (R146). -/
  | completion (f : Flight) (u : State) (turn : s.turn = .engine f u) (flight : s.flight = some f)
      (ctx : u.ctxValid = s.ctxValid) (next : s.events = [] ∨ ∃ es, s.events = .completion :: es)
  /-- The block is reset (R62). -/
  | reset (e : Event) (es : List Event) (next : s.events = e :: es) (resets : e.resets = true) (flight : t.flight = none)
      (ctx : t.ctxValid = false)
  /-- A command is accepted (R141). -/
  | acceptance (w : Limb) (es : List Event) (next : s.events = .write .w64 0x018 w :: es) (cmd : t.cmd = w)
      (idle : s.flight = none) (busy : t.busy = true) (ctx : t.ctxValid = s.ctxValid)
  /-- A limb of P is written (R36). -/
  | writeOfP (off : Nat) (d : Limb) (es : List Event) (next : s.events = .write .w64 off d :: es)
      (limb : off = 0x080 ∨ off = 0x088) (flight : t.flight = s.flight) (ctx : t.ctxValid = false)
  /-- Neither changes. -/
  | unchanged (flight : t.flight = s.flight) (ctx : t.ctxValid = s.ctxValid)

theorem stepCause_before_write {s : State} {width : Width} {off : Nat} {d : Limb} {t : State}
    (h : step (s.before (.write width off d)) = .next t) : StepCause (s.before (.write width off d)) t := by
  obtain hreset | ⟨rfl, rfl, hidle, heq⟩ | ⟨rfl, hoff, l, heq⟩ | ⟨hflight, hctx⟩ := hostWrite_flight_ctxValid s width off d
  · obtain ⟨a, ha⟩ := step_before_of_resets s hreset
    cases ha.symm.trans h
    exact .reset _ _ rfl hreset rfl rfl
  all_goals cases (step_before_write s _ _ d).symm.trans h
  · rw [heq]
    exact .acceptance d _ rfl rfl hidle rfl rfl
  · rw [heq]
    exact .writeOfP off d _ rfl hoff rfl rfl
  · exact .unchanged hflight hctx

theorem stepCause_before_completion {s t : State} (h : step (s.before .completion) = .next t) :
    StepCause (s.before .completion) t := by
  cases hf : s.flight with
  | some f => exact .completion f s (turn_before_completion hf) hf rfl (.inr ⟨_, rfl⟩)
  | none =>
    cases (step_before_completion_idle hf).symm.trans h
    exact .unchanged rfl rfl

theorem stepCause_before {s t : State} {e : Event} (h : step (s.before e) = .next t) : StepCause (s.before e) t := by
  cases e with
  | read width off =>
    cases (step_before_read s width off).symm.trans h
    obtain ⟨r, -, heq⟩ | ⟨-, heq⟩ := hostRead_cases s width off <;> rw [heq] <;> exact .unchanged rfl rfl
  | write width off d => exact stepCause_before_write h
  | resetPulse =>
    cases (step_before_resetPulse s).symm.trans h
    exact .reset _ _ rfl rfl rfl rfl
  | completion => exact stepCause_before_completion h

/-- Every step has its cause. -/
theorem stepCause_of_step {s t : State} (h : step s = .next t) : StepCause s t := by
  cases hev : s.events with
  | nil =>
    cases hf : s.flight with
    | some f => exact .completion f s (turn_no_event hev hf) hf rfl (.inl hev)
    | none =>
      cases (step_no_event_idle hev hf).symm.trans h
      exact .unchanged rfl rfl
  | cons e es =>
    rw [eq_before hev] at h ⊢
    exact stepCause_before h

/-- A completion leaves CTX_VALID, or it is that of a MINIT without error, which sets it (R41, R146). -/
theorem ctxValid_of_step_engine {s u t : State} {f : Flight} (hturn : s.turn = .engine f u) (h : step s = .next t) :
    t.ctxValid = u.ctxValid ∨
    (t.ctxValid = true ∧ decode f.word = .ok .minit ∧ t.flight = none ∧ t.done = true ∧ t.err = false) := by
  cases hd : decode f.word with
  | error bad =>
    cases (step_engine_error hturn hd).symm.trans h
    exact .inl rfl
  | ok i =>
    rw [step_engine_ok hturn hd] at h
    obtain ⟨c, -, heq⟩ | ⟨e, heq, -, hctx | ⟨rfl, -, -, -, hctx⟩⟩ := exec_cases i u
    all_goals cases heq.symm.trans h
    · exact .inl rfl
    · exact .inl (completeOk_ctx_none u hctx).1
    · exact .inr ⟨(completeOk_ctx_some u hctx).1, rfl, rfl, rfl, rfl⟩

/-! ### The statements -/

/-- Settles O16: the STATUS word is a binary numeral of its fields, and a read only answers. -/
theorem statusReadBits : Obligations.StatusReadBits := by
  intro s
  refine ⟨s.statusWord, ?_, ?_⟩
  · rw [step_before_read, hostRead_of_registerAt s rfl (r := .status) rfl]
    rfl
  have herr : s.statusWord.extractLsb' 8 8 = s.errCode := by
    ext k hk
    rw [BitVec.getElem_extractLsb', Nat.add_comm 8 k, statusWord_getLsbD_add_eight, BitVec.getLsbD_eq_getElem hk]
  have htop : s.statusWord.extractLsb' 16 48 = 0 := by
    ext k hk
    simp [show 16 + k = k + 8 + 8 by omega, statusWord_getLsbD_add_eight]
  refine ⟨?_, ?_, ?_, ?_, ?_, ?_, ?_, ?_, herr, htop⟩
  all_goals
    rw [statusWord_getLsbD s (by decide)]
    simp only [State.statusNumeral, Nat.testBit_bit_succ, Nat.testBit_bit_zero, State.busy]

/-- Settles O21: an acceptance, a completion and a reset are steps that set and clear BUSY, and by `StepCause` the only ones. -/
theorem busyTransitions : Obligations.BusyTransitions := by
  intro s
  refine ⟨fun w hidle => ?_, fun hbusy => ?_, fun e he => ?_, fun t h hidle hbusy => ?_, fun t h hbusy hidle => ?_⟩
  · have hw : s.writeWindow .cmd w = some (s.accept w) := by simp [State.writeWindow, hidle]
    exact ⟨_, by rw [step_before_write, hostWrite_of_registerAt rfl rfl hw], rfl⟩
  · obtain ⟨f, hf⟩ := (busy_eq_true_iff s).mp hbusy
    obtain ⟨t, ht, hflight, hdone, -⟩ := step_engine_done (turn_before_completion hf)
    exact ⟨t, ht, (busy_eq_false_iff t).mpr hflight, hdone⟩
  · obtain ⟨a, ha⟩ := step_before_of_resets s he
    exact ⟨_, ha, rfl⟩
  · cases stepCause_of_step h with
    | acceptance w es next cmd => exact ⟨w, es, next, cmd⟩
    | completion f u turn flight => simp [State.busy, flight] at hidle
    | reset e es next resets flight => simp [State.busy, flight] at hbusy
    | writeOfP off d es next limb flight | unchanged flight => simp [busy_congr flight, hidle] at hbusy
  · cases stepCause_of_step h with
    | completion f u turn flight ctx next =>
      obtain ⟨t', ht', -, hdone, -⟩ := step_engine_done turn
      cases ht'.symm.trans h
      exact .inl ⟨hdone, next⟩
    | reset e es next resets => exact .inr ⟨e, es, next, resets⟩
    | acceptance w es next cmd idle busy => simp [busy] at hidle
    | writeOfP off d es next limb flight | unchanged flight => simp [busy_congr flight, hbusy] at hidle

/-- Settles O23: among the causes of a step only a MINIT's completion sets CTX_VALID, and only a reset or a write of P clears
it. -/
theorem ctxValidTransitions : Obligations.CtxValidTransitions := by
  intro s t h
  cases stepCause_of_step h with
  | completion f u turn flight ctx next =>
    rw [← ctx]
    obtain hsame | ⟨hset, hminit⟩ := ctxValid_of_step_engine turn h
    · simp +contextual [hsame]
    · exact ⟨fun _ _ => ⟨f, flight, hminit⟩, by simp [hset]⟩
  | reset e es next resets flight ctx => exact ⟨by simp [ctx], fun _ _ => ⟨e, es, next, .inl resets⟩⟩
  | writeOfP off d es next limb flight ctx =>
    refine ⟨by simp [ctx], fun _ _ => ⟨_, es, next, .inr ⟨d, ?_⟩⟩⟩
    obtain rfl | rfl := limb
    · exact .inl rfl
    · exact .inr rfl
  | acceptance w es next cmd idle busy ctx => simp +contextual [ctx]
  | unchanged flight ctx => simp +contextual [ctx]

/-- Settles O10: an idle block takes the write of P, which is `State.writeP`. -/
theorem writingPClearsContext : Obligations.WritingPClearsContext := by
  intro s d hidle
  have hw (l : LimbIx) : s.writeWindow (.p l) d = some (s.writeP l d) := by
    simp [State.writeWindow, (busy_eq_false_iff s).mpr hidle]
  constructor
  · rw [step_before_write, hostWrite_of_registerAt rfl rfl (hw .limb0)]
    rfl
  · rw [step_before_write, hostWrite_of_registerAt rfl rfl (hw .limb1)]
    rfl

/-- Settles O12: STATUS takes every write, and clearing a bit is `and` with the complement of the written one. -/
theorem statusWriteClears : Obligations.StatusWriteClears := by
  intro s d
  have hclear (b c : Bool) : (b && !c) = if c then false else b := by cases c <;> simp
  rw [step_before_write, hostWrite_of_registerAt (t := s.writeStatus d) rfl rfl rfl]
  simp only [State.writeStatus, State.respond, hclear]

/-- Settles O13: the two cases of a CTRL write, the CTRL word, and IRQ as `DONE AND IRQ_EN`. -/
theorem ctrlWriteAndRead : Obligations.CtrlWriteAndRead := by
  intro s d
  refine ⟨fun hd => ?_, fun hd => ?_, ?_, fun hen => by simp [State.irq, hen], fun hen => by simp [State.irq, hen], rfl⟩
  · rw [step_before_write, hostWrite_ctrl, State.writeCtrl, if_neg (Bool.eq_false_iff.mp hd)]
    rfl
  · rw [step_before_write, hostWrite_ctrl, State.writeCtrl, if_pos hd]
    rfl
  · rw [step_before_read, hostRead_of_registerAt s rfl (r := .ctrl) rfl, ← ctrlWord_eq_ite]
    rfl

/-- Settles O18: the values hold of the reset state whatever the events to come and the last answer, and every reset event
leads to such a state. -/
theorem resetValues : Obligations.ResetValues := by
  unfold Obligations.ResetValues
  intro values
  have hreset (es : List Event) (a : Option Answer) : values { State.reset with events := es, answer := a } :=
    ⟨reg_reset, rfl, rfl, rfl, rfl, rfl, rfl, rfl, rfl, rfl, rfl, rfl, rfl, rfl, rfl, rfl, rfl, rfl⟩
  refine ⟨hreset [] none, fun s e he => ?_⟩
  obtain ⟨a, ha⟩ := step_before_of_resets s he
  exact ⟨_, ha, hreset _ a⟩

end Sys2Proof.Machine
end

section
/-! SUPPORT. Which host accesses the block answers with ERROR, by their offsets (R81, R82, R85, R87, R90), and what a busy block
still takes; after it the statements about the register window of spec/20_memory.md. -/

namespace Sys2Proof.Machine

/-! ### Accesses answered ERROR (R88) -/

/-- An access of a wrong width, misaligned, or at an offset that the map does not give to a register reaches none (R81, R82, R85). -/
theorem target_eq_none {width : Width} {off : Nat}
    (h : width ≠ .w64 ∨ off % 8 ≠ 0 ∨ (0x020 ≤ off ∧ off < 0x080) ∨ (0x0D0 ≤ off ∧ off < 0x100) ∨ 0x200 ≤ off) :
    target width off = none := by
  rw [Option.eq_none_iff_forall_ne_some]
  intro r hr
  obtain ⟨rfl, h8, hat⟩ := target_eq_some hr
  obtain ⟨hnone, -⟩ | hmapped := registerAt_cases h8
  · cases hnone.symm.trans hat
  · simp only [ne_eq, not_true_eq_false, false_or] at h
    omega

/-- A register other than CTRL and STATUS takes a write in an idle block only (R90). -/
theorem idle_of_writeWindow {s t : State} {r : WindowReg} {d : Limb} (h : s.writeWindow r d = some t) (hctrl : r ≠ .ctrl)
    (hstatus : r ≠ .status) : s.busy = false := by
  obtain ⟨rfl, -⟩ | ⟨rfl, -⟩ | ⟨hidle, -⟩ := writeWindow_cases h
  · exact absurd rfl hctrl
  · exact absurd rfl hstatus
  · exact hidle

/-- Where a write can be answered OKAY: CTRL and STATUS, and in an idle block CMD, P, CURVE_A and X (R87, R90). -/
theorem offset_of_writeWindow {s t : State} {off : Nat} {r : WindowReg} {d : Limb} (h8 : off % 8 = 0)
    (hat : registerAt off = some r) (hw : s.writeWindow r d = some t) :
    off = 0x008 ∨ off = 0x010 ∨
    (s.busy = false ∧ (off = 0x018 ∨ (0x080 ≤ off ∧ off < 0x0A0) ∨ (0x100 ≤ off ∧ off < 0x200))) := by
  have htaken {q : WindowReg} (hq : registerAt off = some q) : s.writeWindow q d = some t := by
    cases hat.symm.trans hq
    exact hw
  obtain ⟨hnone, -⟩ | ⟨-, hid⟩ | ⟨hctrl, -⟩ | ⟨hstatus, -⟩ | ⟨hoff, hcmd⟩ | ⟨hlo, hhi, l, hp⟩ | ⟨hlo, hhi, l, hcurveA⟩ |
    ⟨-, -, ⟨l, hrc⟩ | ⟨l, hr2⟩ | ⟨l, hv⟩⟩ | ⟨hlo, hhi, q, l, hx⟩ := registerAt_cases h8
  · cases hnone.symm.trans hat
  · cases htaken hid
  · exact .inl hctrl
  · exact .inr (.inl hstatus)
  · exact .inr (.inr ⟨idle_of_writeWindow (htaken hcmd) nofun nofun, by omega⟩)
  · exact .inr (.inr ⟨idle_of_writeWindow (htaken hp) nofun nofun, by omega⟩)
  · exact .inr (.inr ⟨idle_of_writeWindow (htaken hcurveA) nofun nofun, by omega⟩)
  · cases htaken hrc
  · cases htaken hr2
  · cases htaken hv
  · exact .inr (.inr ⟨idle_of_writeWindow (htaken hx) nofun nofun, by omega⟩)

/-- A write that no register takes is answered ERROR and changes BUSERR only. -/
theorem hostWrite_eq_busError {s : State} {width : Width} {off : Nat} {d : Limb}
    (h : ∀ r, target width off = some r → s.writeWindow r d = none) :
    s.hostWrite width off d = s.busError (.write .error) := by
  obtain ⟨r, t, hr, ht, -⟩ | ⟨-, heq⟩ := hostWrite_cases s width off d
  · cases (h r hr).symm.trans ht
  · exact heq

/-! ### What a busy block does with an access (R90) -/

/-- A write to a busy block that is no soft reset is refused, or sets IRQ_EN, or clears STATUS bits. -/
theorem hostWrite_cases_of_busy {s : State} {width : Width} {off : Nat} {d : Limb} (hbusy : s.busy = true)
    (hreset : (Event.write width off d).resets = false) :
    s.hostWrite width off d = s.busError (.write .error) ∨
    s.hostWrite width off d = State.respond { s with irqEn := d.getLsbD 1 } (.write .okay) ∨
    s.hostWrite width off d = (s.writeStatus d).respond (.write .okay) := by
  obtain ⟨r, t, hr, ht, heq⟩ | ⟨-, heq⟩ := hostWrite_cases s width off d
  case inr => exact .inl heq
  obtain ⟨rfl, rfl⟩ | ⟨-, rfl⟩ | ⟨hidle, -⟩ := writeWindow_cases ht
  · obtain ⟨rfl, -, hat⟩ := target_eq_some hr
    obtain rfl := registerAt_ctrl hat
    have hd : ¬ d.getLsbD 0 = true := by simpa [Event.resets] using hreset
    rw [State.writeCtrl, if_neg hd] at heq
    exact .inr (.inl heq)
  · exact .inr (.inr heq)
  · cases hidle.symm.trans hbusy

/-! ### The statements -/

/-- Settles O17: such a read reaches no register, and such a write none that takes it. -/
theorem errorAccessSetsBuserrOnly : Obligations.ErrorAccessSetsBuserrOnly := by
  intro s width off d unreachable readOnly refusedWhileBusy
  refine ⟨fun h => ?_, fun h => ?_⟩
  · rw [step_before_read, State.hostRead, target_eq_none h]
    rfl
  · rw [step_before_write, hostWrite_eq_busError, State.busError]
    intro r hr
    rw [Option.eq_none_iff_forall_ne_some]
    intro t ht
    obtain h | h := h
    · cases (target_eq_none h).symm.trans hr
    · obtain ⟨-, h8, hat⟩ := target_eq_some hr
      obtain hoff | hoff | ⟨hidle, hoff⟩ := offset_of_writeWindow h8 hat ht
      · omega
      · omega
      · simp only [hidle, reduceCtorEq, false_and, or_false] at h
        omega

/-- Settles O9: the refused writes are among those of O17, and the accesses a busy block takes change CTRL and STATUS at most. -/
theorem busyAccessRules : Obligations.BusyAccessRules := by
  intro s d hbusy
  refine ⟨fun off _ hoff => ?_, fun off hoff => ?_, fun off r h8 hr => ?_, fun e t hcompletion hreset h => ?_⟩
  · exact (errorAccessSetsBuserrOnly s .w64 off d).2 (.inr (.inr ⟨hbusy, hoff⟩))
  · obtain rfl | rfl := hoff
    · exact ⟨_, by rw [step_before_write, hostWrite_ctrl], rfl⟩
    · exact ⟨_, by rw [step_before_write, hostWrite_of_registerAt (t := s.writeStatus d) rfl rfl rfl], rfl⟩
  · rw [step_before_read, hostRead_of_registerAt s h8 hr, State.respond]
  · cases e with
    | read width off =>
      cases (step_before_read s width off).symm.trans h
      obtain ⟨r, -, heq⟩ | ⟨-, heq⟩ := hostRead_cases s width off <;> simp [heq]
    | write width off d =>
      cases (step_before_write s width off d).symm.trans h
      obtain heq | heq | heq := hostWrite_cases_of_busy hbusy hreset <;> simp [heq]
    | resetPulse => cases hreset
    | completion => exact absurd rfl hcompletion

end Sys2Proof.Machine
end

section
/-! SUPPORT. What a row of the opcode map (R116) says of a word, field by field, and that the decoder's line for the row's OPCODE
says the same; which OPCODEs the map leaves; after it the statements about the map and about illegal words (R118). -/

namespace Sys2Proof

/-! ### A mask, field by field -/

/-- What a row's mask asks of a register field: nothing, an even number (R114), or zero (R113). -/
inductive FieldCheck where
  | any
  | even
  | zero

/-- The bits of the field that the mask takes. -/
def FieldCheck.mask : FieldCheck → Nat
  | .any => 0x0
  | .even => 0x1
  | .zero => 0xf

/-- The check on a field's value. -/
def FieldCheck.Passes : FieldCheck → Reg → Prop
  | .any, _ => True
  | .even, r => r.isEven = true
  | .zero, r => r = 0

theorem FieldCheck.mask_lt (c : FieldCheck) : c.mask < 2 ^ 4 := by
  cases c <;> decide

/-- Under its mask a field that passes is 0. -/
theorem FieldCheck.and_mask_eq_zero_iff (c : FieldCheck) (r : Reg) : r.val &&& c.mask = 0 ↔ c.Passes r := by
  cases c with
  | any => simp [mask, Passes]
  | even => simp [mask, Passes, Reg.isEven]
  | zero =>
    have hmod : r.val &&& 0xf = r.val % 2 ^ 4 := Nat.and_two_pow_sub_one_eq_mod _ 4
    simp only [mask, Passes, hmod, Fin.ext_iff, Fin.val_zero]
    omega

/-- A row's checks on the four register fields. -/
structure FieldChecks where
  rd : FieldCheck
  rs1 : FieldCheck
  rs2 : FieldCheck
  rd2 : FieldCheck

/-- The row's mask: OPCODE and RSV whole, the register fields by their checks; written from bit 0 up. -/
def FieldChecks.mask (c : FieldChecks) : Nat :=
  (2 ^ 8 - 1) + 2 ^ 8 * (c.rd.mask + 2 ^ 4 * (c.rs1.mask + 2 ^ 4 * (c.rs2.mask + 2 ^ 4 * (c.rd2.mask + 2 ^ 4 * (2 ^ 40 - 1)))))

/-- The row's checks on a word's register fields. -/
def FieldChecks.Pass (c : FieldChecks) (w : Limb) : Prop :=
  c.rd.Passes (rdField w) ∧ c.rs1.Passes (rs1Field w) ∧ c.rs2.Passes (rs2Field w) ∧ c.rd2.Passes (rd2Field w)

/-- Comparing a number under a mask, the low `k` bits and the rest apart. -/
theorem and_add_two_pow_mul_eq_iff {k m : Nat} (hm : m < 2 ^ k) (n M d : Nat) :
    n &&& (m + 2 ^ k * M) = d ↔ n % 2 ^ k &&& m = d % 2 ^ k ∧ n / 2 ^ k &&& M = d / 2 ^ k := by
  have hmod : (m + 2 ^ k * M) % 2 ^ k = m := by rw [Nat.add_mul_mod_self_left, Nat.mod_eq_of_lt hm]
  have hdiv : (m + 2 ^ k * M) / 2 ^ k = M := by
    rw [Nat.add_mul_div_left _ _ (Nat.two_pow_pos k), Nat.div_eq_of_lt hm, Nat.zero_add]
  rw [Nat.ext_div_mod_iff (2 ^ k), Nat.and_div_two_pow, Nat.and_mod_two_pow, hmod, hdiv, and_comm]

/-- A word under a row's mask is the row's OPCODE exactly when the word has that OPCODE, RSV is 0 and the field checks pass. -/
theorem FieldChecks.and_mask_eq_iff (c : FieldChecks) (w : Limb) {op : Nat} (hop : op < 2 ^ 8) :
    w &&& BitVec.ofNat 64 c.mask = BitVec.ofNat 64 op ↔ opcodeField w = op ∧ rsvField w = 0 ∧ c.Pass w := by
  have hrsv : w.toNat / 2 ^ 24 < 2 ^ 40 := by omega
  have hmask : c.mask < 2 ^ 64 := by
    have := c.rd.mask_lt
    have := c.rs1.mask_lt
    have := c.rs2.mask_lt
    have := c.rd2.mask_lt
    simp only [mask]
    omega
  have htoNat : w &&& BitVec.ofNat 64 c.mask = BitVec.ofNat 64 op ↔ w.toNat &&& c.mask = op := by
    rw [BitVec.toNat_eq, BitVec.toNat_and, BitVec.toNat_ofNat, BitVec.toNat_ofNat, Nat.mod_eq_of_lt hmask,
      Nat.mod_eq_of_lt (by omega)]
  rw [htoNat, mask, and_add_two_pow_mul_eq_iff (by decide), Nat.mod_eq_of_lt hop, Nat.div_eq_of_lt hop,
    and_add_two_pow_mul_eq_iff c.rd.mask_lt, and_add_two_pow_mul_eq_iff c.rs1.mask_lt,
    and_add_two_pow_mul_eq_iff c.rs2.mask_lt, and_add_two_pow_mul_eq_iff c.rd2.mask_lt]
  simp only [Nat.zero_mod, Nat.zero_div, Nat.div_div_eq_div_mul, ← Nat.pow_add, Nat.and_two_pow_sub_one_eq_mod, Nat.reduceAdd,
    Nat.mod_mod, Nat.mod_eq_of_lt hrsv]
  simp only [Pass, ← FieldCheck.and_mask_eq_zero_iff]
  constructor
  · rintro ⟨ho, hrd, hrs1, hrs2, hrd2, hr⟩
    exact ⟨ho, hr, hrd, hrs1, hrs2, hrd2⟩
  · rintro ⟨ho, hr, hrd, hrs1, hrs2, hrd2⟩
    exact ⟨ho, hrd, hrs1, hrs2, hrd2, hr⟩

/-! ### A row and the decoder's line for its OPCODE -/

/-- The OPCODE of a row (R116). -/
def OpcodeRow.opcode (row : OpcodeRow) : Nat := opcodeField row.pattern

/-- A word matches a row of the opcode map (R116), with R115's proviso on the row of DIVREM. -/
def OpcodeRow.Matches (row : OpcodeRow) (w : Limb) : Prop :=
  w &&& row.mask = row.pattern ∧ (row.mnemonic = "DIVREM" → rdField w ≠ rd2Field w)

/-- The row is the decoder's line for its OPCODE: the words of the command `i` are those whose fields pass the checks `c` of the
mask and, for DIVREM, name different destinations. -/
structure OpcodeRow.Describes (row : OpcodeRow) (c : FieldChecks) (i : Limb → Instr) : Prop where
  pattern : row.pattern = BitVec.ofNat 64 row.opcode
  mask : row.mask = BitVec.ofNat 64 c.mask
  mnemonic : ∀ w, (i w).mnemonic = row.mnemonic
  encoded : Machine.EncodedAs row.opcode (fun w => c.Pass w ∧ (row.mnemonic = "DIVREM" → rdField w ≠ rd2Field w)) i

/-- A row describes a line of the decoder when its checks are the line's operand checks. -/
theorem OpcodeRow.exists_describes {row : OpcodeRow} (c : FieldChecks) {i : Limb → Instr} {unused : Limb → List Reg}
    (hdecode : ∀ {w}, opcodeField w = row.opcode → decode w = checkOperands w (unused w) (i w))
    (hpattern : row.pattern = BitVec.ofNat 64 row.opcode) (hmask : row.mask = BitVec.ofNat 64 c.mask)
    (hmnemonic : ∀ w, (i w).mnemonic = row.mnemonic)
    (hchecks : ∀ w, (c.Pass w ∧ (row.mnemonic = "DIVREM" → rdField w ≠ rd2Field w)) ↔
      (∀ r ∈ unused w, r = 0) ∧ (i w).wellFormed = true) :
    ∃ c i, row.Describes c i :=
  ⟨c, i, hpattern, hmask, hmnemonic, encodedAs_of_checkOperands unused (fun _ => hdecode) hchecks⟩

namespace OpcodeRow.Describes

variable {row : OpcodeRow} {c : FieldChecks} {i : Limb → Instr} {w : Limb}

theorem matches_iff (h : row.Describes c i) :
    row.Matches w ↔
      opcodeField w = row.opcode ∧ rsvField w = 0 ∧ c.Pass w ∧ (row.mnemonic = "DIVREM" → rdField w ≠ rd2Field w) := by
  have hopcode : row.opcode < 2 ^ 8 := Nat.mod_lt _ (by decide)
  rw [OpcodeRow.Matches, h.mask, h.pattern, c.and_mask_eq_iff w hopcode, and_assoc, and_assoc]

theorem decode_of_matches (h : row.Describes c i) (hw : row.Matches w) : decode w = .ok (i w) := by
  obtain ⟨hop, hchecks⟩ := h.matches_iff.mp hw
  exact (h.encoded w hop).1 hchecks

theorem decode_of_not_matches (h : row.Describes c i) (hop : opcodeField w = row.opcode) (hw : ¬ row.Matches w) :
    decode w = .error .operand :=
  (h.encoded w hop).2 fun hchecks => hw (h.matches_iff.mpr ⟨hop, hchecks⟩)

end OpcodeRow.Describes

/-- Every row of the map describes its line of the decoder. -/
theorem opcodeMap_describes : ∀ row ∈ opcodeMap, ∃ c i, row.Describes c i := by
  simp only [opcodeMap, List.forall_mem_cons]
  refine ⟨
    OpcodeRow.exists_describes ⟨.zero, .zero, .zero, .zero⟩ decode_nop rfl rfl (fun _ => rfl) ?_,
    OpcodeRow.exists_describes ⟨.any, .any, .any, .zero⟩ decode_add rfl rfl (fun _ => rfl) ?_,
    OpcodeRow.exists_describes ⟨.any, .any, .any, .zero⟩ decode_sub rfl rfl (fun _ => rfl) ?_,
    OpcodeRow.exists_describes ⟨.even, .any, .any, .zero⟩ decode_mul rfl rfl (fun _ => rfl) ?_,
    OpcodeRow.exists_describes ⟨.zero, .any, .any, .zero⟩ decode_eq rfl rfl (fun _ => rfl) ?_,
    OpcodeRow.exists_describes ⟨.zero, .any, .zero, .zero⟩ decode_iszero rfl rfl (fun _ => rfl) ?_,
    OpcodeRow.exists_describes ⟨.zero, .any, .zero, .zero⟩ decode_isone rfl rfl (fun _ => rfl) ?_,
    OpcodeRow.exists_describes ⟨.any, .even, .zero, .zero⟩ decode_rem rfl rfl (fun _ => rfl) ?_,
    OpcodeRow.exists_describes ⟨.any, .even, .zero, .any⟩ decode_divrem rfl rfl (fun _ => rfl) ?_,
    OpcodeRow.exists_describes ⟨.any, .any, .any, .zero⟩ decode_addm rfl rfl (fun _ => rfl) ?_,
    OpcodeRow.exists_describes ⟨.any, .any, .any, .zero⟩ decode_subm rfl rfl (fun _ => rfl) ?_,
    OpcodeRow.exists_describes ⟨.any, .any, .any, .zero⟩ decode_mulm rfl rfl (fun _ => rfl) ?_,
    OpcodeRow.exists_describes ⟨.any, .any, .zero, .zero⟩ decode_inv rfl rfl (fun _ => rfl) ?_,
    OpcodeRow.exists_describes ⟨.zero, .zero, .zero, .zero⟩ decode_minit rfl rfl (fun _ => rfl) ?_,
    OpcodeRow.exists_describes ⟨.any, .any, .zero, .zero⟩ decode_tomont rfl rfl (fun _ => rfl) ?_,
    OpcodeRow.exists_describes ⟨.any, .any, .zero, .zero⟩ decode_frommont rfl rfl (fun _ => rfl) ?_,
    OpcodeRow.exists_describes ⟨.any, .any, .any, .zero⟩ decode_mmul rfl rfl (fun _ => rfl) ?_,
    OpcodeRow.exists_describes ⟨.any, .any, .any, .zero⟩ decode_madd rfl rfl (fun _ => rfl) ?_,
    OpcodeRow.exists_describes ⟨.even, .even, .even, .zero⟩ decode_padd rfl rfl (fun _ => rfl) ?_,
    OpcodeRow.exists_describes ⟨.even, .even, .zero, .zero⟩ decode_pdbl rfl rfl (fun _ => rfl) ?_,
    by simp⟩
  all_goals simp [FieldChecks.Pass, FieldCheck.Passes, Instr.wellFormed, and_comm, and_left_comm, and_assoc]

/-! ### The OPCODEs of the map and the reserved ones -/

/-- The OPCODEs of the map's rows. -/
def mapOpcodes : List Nat := opcodeMap.map OpcodeRow.opcode

/-- The OPCODEs that R118 lists as reserved. -/
def ReservedOpcode (b : Nat) : Prop :=
  (0x07 ≤ b ∧ b ≤ 0x0F) ∨ (0x12 ≤ b ∧ b ≤ 0x1F) ∨ (0x23 ≤ b ∧ b ≤ 0x27) ∨ (0x29 ≤ b ∧ b ≤ 0x2F) ∨
    (0x35 ≤ b ∧ b ≤ 0x3F) ∨ 0x42 ≤ b

theorem mapOpcodes_eq : mapOpcodes =
    [0x00, 0x01, 0x02, 0x03, 0x04, 0x05, 0x06, 0x10, 0x11, 0x20, 0x21, 0x22, 0x28, 0x30, 0x31, 0x32, 0x33, 0x34, 0x40, 0x41] :=
  rfl

theorem reservedOpcode_iff (b : Nat) : ReservedOpcode b ↔ b ∉ mapOpcodes := by
  simp only [ReservedOpcode, mapOpcodes_eq, List.mem_cons, List.not_mem_nil, or_false]
  omega

/-- A word with an OPCODE of the map matches its row and is the row's command, or it is an illegal-operand word. -/
theorem decode_cases_of_mem_mapOpcodes {w : Limb} (h : opcodeField w ∈ mapOpcodes) :
    (∃ row ∈ opcodeMap, row.Matches w ∧ ∃ i, decode w = .ok i ∧ i.mnemonic = row.mnemonic) ∨ decode w = .error .operand := by
  obtain ⟨row, hrow, hop⟩ := List.mem_map.mp h
  obtain ⟨c, i, hdescribes⟩ := opcodeMap_describes row hrow
  by_cases hw : row.Matches w
  · exact .inl ⟨row, hrow, hw, i w, hdescribes.decode_of_matches hw, hdescribes.mnemonic w⟩
  · exact .inr (hdescribes.decode_of_not_matches hop.symm hw)

/-- The decoder calls a word's OPCODE illegal exactly when the map does not have it (R117). -/
theorem decode_eq_error_opcode_iff (w : Limb) : decode w = .error .opcode ↔ opcodeField w ∉ mapOpcodes := by
  constructor
  · intro hillegal hmem
    obtain ⟨row, -, -, i, hdecode, -⟩ | hdecode := decode_cases_of_mem_mapOpcodes hmem
    all_goals cases hillegal.symm.trans hdecode
  · intro hnot
    unfold decode
    split
    case h_21 => rfl
    all_goals
      next hop => exact absurd (hop ▸ by decide) hnot

/-- A word is a command exactly when it matches a row of the map, and then the command has that row's mnemonic. -/
theorem decode_eq_ok_iff_matches (w : Limb) (m : String) :
    (∃ i, decode w = .ok i ∧ i.mnemonic = m) ↔ ∃ row ∈ opcodeMap, row.mnemonic = m ∧ row.Matches w := by
  constructor
  · rintro ⟨i, hi, rfl⟩
    have hmem : opcodeField w ∈ mapOpcodes := by
      by_contra hnot
      cases hi.symm.trans ((decode_eq_error_opcode_iff w).mpr hnot)
    obtain ⟨row, hrow, hw, j, hdecode, hmnemonic⟩ | hdecode := decode_cases_of_mem_mapOpcodes hmem
    all_goals cases hi.symm.trans hdecode
    exact ⟨row, hrow, hmnemonic.symm, hw⟩
  · rintro ⟨row, hrow, rfl, hw⟩
    obtain ⟨c, i, hdescribes⟩ := opcodeMap_describes row hrow
    exact ⟨i w, hdescribes.decode_of_matches hw, hdescribes.mnemonic w⟩

end Sys2Proof

namespace Sys2Proof.Machine

/-! ### The completion of an illegal word (R118) -/

/-- An idle block takes every CMD write (R141). -/
theorem step_before_write_cmd {s : State} (w : Limb) (hidle : s.flight = none) :
    step (s.before (.write .w64 0x018 w)) = .next ((s.accept w).respond (.write .okay)) := by
  have hw : s.writeWindow .cmd w = some (s.accept w) := by simp [State.writeWindow, (busy_eq_false_iff s).mpr hidle]
  rw [step_before_write, hostWrite_of_registerAt rfl rfl hw]

/-- A word in flight that is no command completes with its error code, and nothing else is written (R118, R146). -/
theorem step_before_completion_illegal {s : State} {w : Limb} {ops : Latch} {bad : Illegal}
    (hflight : s.flight = some ⟨w, ops⟩) (hbad : decode w = .error bad) :
    step (s.before .completion) = .next (s.afterError (illegalCode bad).value) :=
  step_engine_error (turn_before_completion hflight) hbad

/-! ### The statements -/

/-- Settles O3: each row of the map describes the decoder's line for its OPCODE. -/
theorem opcodeMapDecides : Obligations.OpcodeMapDecides := by
  intro w m
  rw [decode_eq_ok_iff_matches]
  refine exists_congr fun row => and_congr_right fun _ => and_congr_right fun hm => ?_
  rw [OpcodeRow.Matches, hm]

/-- Settles O7: the write is accepted whatever the word, and the completion of an illegal word is its error. -/
theorem illegalWordCompletes : Obligations.IllegalWordCompletes := by
  intro s w hidle b reserved
  have hopcode : decode w = .error .opcode ↔ reserved :=
    (decode_eq_error_opcode_iff w).trans (reservedOpcode_iff b).symm
  refine ⟨_, step_before_write_cmd w hidle, rfl, rfl, rfl, rfl, rfl, rfl, rfl, rfl, rfl, rfl, fun hreserved => ?_,
    fun hmapped hillegal => ?_⟩
  · exact step_before_completion_illegal rfl (hopcode.mpr hreserved)
  · have hoperand : decode w = .error .operand := by
      cases hdecode : decode w with
      | ok i => exact absurd hdecode (hillegal i)
      | error bad =>
        cases bad with
        | opcode => exact absurd (hopcode.mp hdecode) hmapped
        | operand => rfl
    exact step_before_completion_illegal rfl hoperand

end Sys2Proof.Machine
end

section
/-! SUPPORT. Which word is NOP; after it the statements of spec/40_execution.md about acceptance (R141) and NOP (R150). -/

namespace Sys2Proof

/-- The zero word is a NOP, and no other: the mask of NOP's row of the opcode map takes every bit (R116). -/
theorem decode_eq_ok_nop_iff (w : Limb) : decode w = .ok .nop ↔ w = 0 := by
  have hrow_nop : ∀ row ∈ opcodeMap, row.mnemonic = "NOP" → row.mask = BitVec.allOnes 64 ∧ row.pattern = 0 := by decide
  constructor
  · intro hdecode
    obtain ⟨row, hrow, hmnemonic, hmatch, -⟩ := (decode_eq_ok_iff_matches w "NOP").mp ⟨.nop, hdecode, rfl⟩
    obtain ⟨hmask, hpattern⟩ := hrow_nop row hrow hmnemonic
    rwa [hmask, hpattern, BitVec.and_allOnes] at hmatch
  · rintro rfl
    rfl

end Sys2Proof

namespace Sys2Proof.Machine

/-- Settles O8: an idle block's answer is `State.accept`, which clears DONE and so IRQ; a busy block's refusal is among those of
O17. -/
theorem commandAccepted : Obligations.CommandAccepted := by
  intro s w
  refine ⟨fun hidle => ⟨_, step_before_write_cmd w hidle, rfl, ?_⟩, fun hbusy => ?_⟩
  · rw [State.irq, respond_done, accept_done, Bool.false_and]
  · exact (errorAccessSetsBuserrOnly s .w64 0x018 w).2 (.inr (.inr ⟨hbusy, .inl rfl⟩))

/-- Settles O27: the decoder's line for OPCODE 0x00 takes all four fields as unused, NOP's row has the zero word only, and NOP
completes with an effect that writes nothing. -/
theorem nopCompletes : Obligations.NopCompletes := by
  refine ⟨encodedAs_of_checkOperands _ (fun _ => decode_nop) fun w => ?_, decode_eq_ok_nop_iff, fun s => ?_⟩
  · simp [Instr.wellFormed]
  · rw [exec, execNop, finish_eq, complete_ok]
    rfl

end Sys2Proof.Machine
end

section
/-! SUPPORT. The completions of the fixed-width commands in terms of 128-bit words; after it the statements of
spec/41_fixed_width.md. -/

namespace Sys2Proof.Machine

/-! ### 128-bit words (R170) -/

/-- Narrowing reduces modulo 2^128 (R170). -/
theorem lowHalf_eq_ofNat_mod (n : Nat) : lowHalf n = BitVec.ofNat 128 (n % 2 ^ 128) :=
  BitVec.eq_of_toNat_eq (by simp)

/-- The exact sum, narrowed, is the sum of the words (R172). -/
theorem lowHalf_add_toNat (a b : Word128) : lowHalf (a.toNat + b.toNat) = a + b := by
  simp [lowHalf, BitVec.ofNat_add]

/-- The difference of words is the exact difference modulo 2^128 (R174). -/
theorem sub_eq_ofInt_emod (a b : Word128) : a - b = BitVec.ofInt 128 ((a.toNat - b.toNat : Int) % 2 ^ 128) := by
  have ha := a.isLt
  have hb := b.isLt
  apply BitVec.eq_of_toNat_eq
  rw [BitVec.toNat_sub, BitVec.toNat_ofInt]
  omega

/-- Subtracting an addend from a sum borrows exactly when the addition carried (R175). -/
theorem borrowFlag_add_right (a b : Word128) : borrowFlag (a + b) b = carryFlag a b := by
  have ha := a.isLt
  have hb := b.isLt
  rw [borrowFlag, carryFlag, decide_eq_decide, BitVec.toNat_add]
  omega

/-! ### Pairs (R34) -/

theorem val_mod_two_of_isEven {r : Reg} (h : r.isEven = true) : r.val % 2 = 0 := by
  simpa [Reg.isEven] using h

/-- The partner of a pair's even register is the next register. -/
theorem partner_val_of_isEven {r : Reg} (h : r.isEven = true) : (partner r).val = r.val + 1 := by
  have := val_mod_two_of_isEven h
  simp only [partner]
  omega

/-! ### Completions (R143, R146) -/

@[simp] theorem reg_afterOk (s : State) (c : Bool) (r : Reg) : (s.afterOk c).reg r = s.reg r := rfl

section
variable {s : State} {rd rs1 rs2 : Reg}

theorem exec_add_of_serves (h : s.Serves (.add rd rs1 rs2)) :
    exec (.add rd rs1 rs2) s =
      .next ((s.setReg rd (s.reg rs1 + s.reg rs2)).afterOk (carryFlag (s.reg rs1) (s.reg rs2))) := by
  have hops : s.operands rs1 rs2 = s.latch rs1 rs2 := operands_of_serves h
  simp [exec, execAdd, hops, State.latch, lowHalf_add_toNat]

theorem exec_sub_of_serves (h : s.Serves (.sub rd rs1 rs2)) :
    exec (.sub rd rs1 rs2) s =
      .next ((s.setReg rd (s.reg rs1 - s.reg rs2)).afterOk (borrowFlag (s.reg rs1) (s.reg rs2))) := by
  have hops : s.operands rs1 rs2 = s.latch rs1 rs2 := operands_of_serves h
  simp [exec, execSub, hops, State.latch]

/-- MUL's one check passes: a served MUL is well formed (R114). -/
theorem exec_mul_of_serves (h : s.Serves (.mul rd rs1 rs2)) :
    exec (.mul rd rs1 rs2) s =
      .next (((s.setReg rd (lowHalf ((s.reg rs1).toNat * (s.reg rs2).toNat))).setReg (partner rd)
        (highHalf ((s.reg rs1).toNat * (s.reg rs2).toNat))).afterOk false) := by
  have hops : s.operands rs1 rs2 = s.latch rs1 rs2 := operands_of_serves h
  have hwf : (Instr.mul rd rs1 rs2).wellFormed = true := wellFormed_of_serves h
  simp [exec, execMul, hops, State.latch, hwf, checked_nil, noFlag]

theorem exec_eq_of_serves (h : s.Serves (.eq rs1 rs2)) :
    exec (.eq rs1 rs2) s = .next (s.afterOk (equalFlag (s.reg rs1) (s.reg rs2))) := by
  have hops : s.operands rs1 rs2 = s.latch rs1 rs2 := operands_of_serves h
  simp [exec, execEq, hops, State.latch]

theorem exec_iszero_of_serves (h : s.Serves (.iszero rs1)) :
    exec (.iszero rs1) s = .next (s.afterOk (zeroFlag (s.reg rs1))) := by
  have hops : s.operands rs1 0 = s.latch rs1 0 := operands_of_serves h
  simp [exec, execIszero, hops, State.latch]

theorem exec_isone_of_serves (h : s.Serves (.isone rs1)) :
    exec (.isone rs1) s = .next (s.afterOk (oneFlag (s.reg rs1))) := by
  have hops : s.operands rs1 0 = s.latch rs1 0 := operands_of_serves h
  simp [exec, execIsone, hops, State.latch]

end

/-! ### The statements -/

/-- Settles O30: the sum less the addend is the other addend, as words, and the SUB borrows exactly when the ADD carried. -/
theorem subUndoesAdd : Obligations.SubUndoesAdd := by
  intro s t s' rd rs1 rs2 re hadd ht hsub hread haddend
  cases (exec_add_of_serves hadd).symm.trans ht
  have hsum : s'.reg rd = s.reg rs1 + s.reg rs2 := hread.trans (reg_setReg_same ..)
  refine ⟨_, exec_sub_of_serves hsub, ?_, ?_⟩ <;> rw [hsum, haddend]
  · rw [reg_afterOk, reg_setReg_same, BitVec.add_sub_cancel]
  · exact borrowFlag_add_right ..

/-- Settles O28: RD2 is ADD's one unused field, and its sum of words is the exact sum modulo 2^128. -/
theorem addCompletes : Obligations.AddCompletes := by
  refine ⟨encodedAs_of_checkOperands _ (fun _ => decode_add) fun w => ?_, fun s rd rs1 rs2 hserves => ?_⟩
  · simp [Instr.wellFormed]
  · rw [exec_add_of_serves hserves, ← lowHalf_add_toNat, lowHalf_eq_ofNat_mod]
    rfl

/-- Settles O29: RD2 is SUB's one unused field, and its difference of words is the exact difference modulo 2^128. -/
theorem subCompletes : Obligations.SubCompletes := by
  refine ⟨encodedAs_of_checkOperands _ (fun _ => decode_sub) fun w => ?_, fun s rd rs1 rs2 hserves => ?_⟩
  · simp [Instr.wellFormed]
  · rw [exec_sub_of_serves hserves, sub_eq_ofInt_emod]
    rfl

/-- Settles O31: a MUL in flight has an even RD, and its two writes are the halves of the exact product. -/
theorem mulCompletes : Obligations.MulCompletes := by
  refine ⟨encodedAs_of_checkOperands _ (fun _ => decode_mul) fun w => ?_, fun s rd rs1 rs2 hserves => ?_⟩
  · simp [Instr.wellFormed]
  · have heven : rd.isEven = true := wellFormed_of_serves hserves
    refine ⟨val_mod_two_of_isEven heven, partner_val_of_isEven heven, ?_⟩
    rw [exec_mul_of_serves hserves, lowHalf_eq_ofNat_mod]
    rfl

/-- Settles O32: the tests leave RD and RD2, and ISZERO and ISONE also RS2, unused, and complete with an effect that writes
nothing. -/
theorem testsComplete : Obligations.TestsComplete := by
  refine ⟨encodedAs_of_checkOperands _ (fun _ => decode_eq) fun w => ?_,
    encodedAs_of_checkOperands _ (fun _ => decode_iszero) fun w => ?_,
    encodedAs_of_checkOperands _ (fun _ => decode_isone) fun w => ?_,
    fun s rs1 rs2 => ⟨exec_eq_of_serves, exec_iszero_of_serves, exec_isone_of_serves⟩⟩
  all_goals simp [Instr.wellFormed]

end Sys2Proof.Machine
end

section
/-! SUPPORT. The quotient and the remainder of a source pair by P, and the completions of REM and DIVREM; after it the statements
of spec/42_reduction.md. -/

namespace Sys2Proof.Machine

/-! ### The quotient and the remainder (R200, R203) -/

/-- The 256-bit value of the pair whose even register is `r`, `X[r+1] ++ X[r]` (R34). -/
def State.pair (s : State) (r : Reg) : Nat := (s.reg (partner r)).toNat * 2 ^ 128 + (s.reg r).toNat

theorem latch_dividend (s : State) (r q : Reg) : (s.latch r q).dividend = s.pair r := rfl

theorem pair_lt (s : State) (r : Reg) : s.pair r < 2 ^ 256 := by
  have hhi := (s.reg (partner r)).isLt
  have hlo := (s.reg r).isLt
  rw [State.pair]
  omega

/-- Under a normalized P the quotient has 129 bits. -/
theorem pair_div_lt {p : Word128} (hnorm : p.getLsbD 127 = true) (s : State) (r : Reg) : s.pair r / p.toNat < 2 ^ 129 := by
  have hp : 2 ^ 127 ≤ p.toNat := le_of_normalized hnorm
  have hu := pair_lt s r
  exact Nat.div_lt_of_lt_mul (by omega)

/-- The quotient overflows 128 bits exactly when the high half is at or above P (R203). -/
theorem two_pow_le_pair_div_iff {p : Word128} (hnorm : p.getLsbD 127 = true) (s : State) (r : Reg) :
    2 ^ 128 ≤ s.pair r / p.toNat ↔ p.toNat ≤ (s.reg (partner r)).toNat := by
  have hp : 2 ^ 127 ≤ p.toNat := le_of_normalized hnorm
  have hlo := (s.reg r).isLt
  rw [Nat.le_div_iff_mul_le (by omega), State.pair]
  omega

/-- The part of the quotient above its low 128 bits is 1 exactly on overflow (R206). -/
theorem pair_div_div_eq_one_iff {p : Word128} (hnorm : p.getLsbD 127 = true) (s : State) (r : Reg) :
    s.pair r / p.toNat / 2 ^ 128 = 1 ↔ p.toNat ≤ (s.reg (partner r)).toNat := by
  have hq := pair_div_lt hnorm s r
  rw [← two_pow_le_pair_div_iff hnorm]
  omega

/-- Bit 128 of a 129-bit quotient is its whole high part (R206). -/
theorem quotientFlag_of_lt {q : Nat} (h : q < 2 ^ 129) : quotientFlag q = decide (q / 2 ^ 128 = 1) := by
  rw [quotientFlag, Nat.testBit_eq_decide_div_mod_eq, Nat.mod_eq_of_lt (by omega)]

/-- The FLAG and the register that DIVREM writes hold the whole quotient (R208). -/
theorem quotientFlag_add_lowHalf {q : Nat} (h : q < 2 ^ 129) :
    (if quotientFlag q then 1 else 0) * 2 ^ 128 + (lowHalf q).toNat = q := by
  rw [quotientFlag_of_lt h, lowHalf_toNat]
  simp only [decide_eq_true_eq]
  split <;> omega

/-- DIVREM's FLAG is REM's (R203, R206). -/
theorem quotientFlag_pair_div {p : Word128} (hnorm : p.getLsbD 127 = true) (s : State) (r : Reg) :
    quotientFlag (s.pair r / p.toNat) = decide (p.toNat ≤ (s.reg (partner r)).toNat) := by
  rw [quotientFlag_of_lt (pair_div_lt hnorm s r), decide_eq_decide, pair_div_div_eq_one_iff hnorm]

/-- A remainder by a normalized P fits in a register. -/
theorem lowHalf_mod_toNat {p : Word128} (hnorm : p.getLsbD 127 = true) (n : Nat) :
    (lowHalf (n % p.toNat)).toNat = n % p.toNat := by
  have hp : 2 ^ 127 ≤ p.toNat := le_of_normalized hnorm
  exact lowHalf_of_lt ((Nat.mod_lt n (by omega)).trans p.isLt)

/-! ### Completions (R204, R206) -/

/-- A completion whose one check left is `b` is without error only if `b` holds. -/
theorem check_of_complete_ok {s : State} {b : Bool} {c : ErrorCode} {e : Effect}
    (hok : (s.complete (checked [(b, c)] (.ok e))).err = false) : b = true := by
  cases b with
  | true => rfl
  | false => cases hok

section
variable {s : State} {rd rd2 rs1 : Reg}

/-- A served REM is well formed (R114), so the check of P is the one that can fail. -/
theorem exec_rem_of_serves (h : s.Serves (.rem rd rs1)) :
    exec (.rem rd rs1) s =
      .next (s.complete (checked [(s.p.getLsbD 127, .modNotNormalized)]
        (.ok ⟨[(rd, lowHalf (s.pair rs1 % s.p.toNat))], decide (s.p.toNat ≤ (s.reg (partner rs1)).toNat), none⟩))) := by
  have hops : s.operands rs1 0 = s.latch rs1 0 := operands_of_serves h
  have hwf : (Instr.rem rd rs1).wellFormed = true := wellFormed_of_serves h
  simp only [exec, execRem, hops, hwf, checked_true, latch_dividend, finish_eq]
  rfl

theorem exec_rem_of_normalized (h : s.Serves (.rem rd rs1)) (hnorm : s.p.getLsbD 127 = true) :
    exec (.rem rd rs1) s =
      .next ((s.setReg rd (lowHalf (s.pair rs1 % s.p.toNat))).afterOk (decide (s.p.toNat ≤ (s.reg (partner rs1)).toNat))) := by
  rw [exec_rem_of_serves h, hnorm]
  rfl

theorem exec_rem_of_not_normalized (h : s.Serves (.rem rd rs1)) (hnorm : s.p.getLsbD 127 = false) :
    exec (.rem rd rs1) s = .next (s.afterError 0x05) := by
  rw [exec_rem_of_serves h, hnorm]
  rfl

/-- A served DIVREM is well formed (R114, R115), so the check of P is the one that can fail. -/
theorem exec_divrem_of_serves (h : s.Serves (.divrem rd rd2 rs1)) :
    exec (.divrem rd rd2 rs1) s =
      .next (s.complete (checked [(s.p.getLsbD 127, .modNotNormalized)]
        (.ok ⟨[(rd, lowHalf (s.pair rs1 / s.p.toNat)), (rd2, lowHalf (s.pair rs1 % s.p.toNat))],
          quotientFlag (s.pair rs1 / s.p.toNat), none⟩))) := by
  have hops : s.operands rs1 0 = s.latch rs1 0 := operands_of_serves h
  have hwf : (Instr.divrem rd rd2 rs1).wellFormed = true := wellFormed_of_serves h
  simp only [exec, execDivrem, hops, hwf, checked_true, latch_dividend, finish_eq]
  rfl

theorem exec_divrem_of_normalized (h : s.Serves (.divrem rd rd2 rs1)) (hnorm : s.p.getLsbD 127 = true) :
    exec (.divrem rd rd2 rs1) s =
      .next (((s.setReg rd (lowHalf (s.pair rs1 / s.p.toNat))).setReg rd2 (lowHalf (s.pair rs1 % s.p.toNat))).afterOk
        (quotientFlag (s.pair rs1 / s.p.toNat))) := by
  rw [exec_divrem_of_serves h, hnorm]
  rfl

theorem exec_divrem_of_not_normalized (h : s.Serves (.divrem rd rd2 rs1)) (hnorm : s.p.getLsbD 127 = false) :
    exec (.divrem rd rd2 rs1) s = .next (s.afterError 0x05) := by
  rw [exec_divrem_of_serves h, hnorm]
  rfl

/-- DIVREM's two destinations differ (R115), so its first write survives its second. -/
theorem rd2_ne_rd_of_serves (h : s.Serves (.divrem rd rd2 rs1)) : rd2 ≠ rd := by
  have hwf : (rs1.isEven && rd != rd2) = true := wellFormed_of_serves h
  rw [Bool.and_eq_true, bne_iff_ne] at hwf
  exact hwf.2.symm

end

/-! ### The statements -/

/-- Settles O33: RS2 and RD2 are REM's unused fields, and its two outcomes follow bit 127 of P. -/
theorem remCompletes : Obligations.RemCompletes := by
  refine ⟨encodedAs_of_checkOperands _ (fun _ => decode_rem) fun w => ?_,
    fun s rd rs1 hserves => ⟨exec_rem_of_normalized hserves, exec_rem_of_not_normalized hserves⟩⟩
  simp [Instr.wellFormed, and_assoc]

/-- Settles O34: RS2 is DIVREM's one unused field, its quotient has 129 bits, and bit 128 is REM's overflow. -/
theorem divremCompletes : Obligations.DivremCompletes := by
  refine ⟨encodedAs_of_checkOperands _ (fun _ => decode_divrem) fun w => ?_,
    fun s rd rd2 rs1 hserves => ⟨fun hnorm => ?_, exec_divrem_of_not_normalized hserves⟩⟩
  · simp [Instr.wellFormed]
  · have hq : s.pair rs1 / s.p.toNat < 2 ^ 129 := pair_div_lt hnorm s rs1
    refine ⟨?_, hq, ?_⟩
    · rw [exec_divrem_of_normalized hserves hnorm, quotientFlag_of_lt hq, lowHalf_eq_ofNat_mod (s.pair rs1 / s.p.toNat)]
      rfl
    · exact pair_div_div_eq_one_iff hnorm s rs1

/-- Settles O35: FLAG and `X[rd]` hold the whole quotient, so the law is division with remainder. -/
theorem divisionLaw : Obligations.DivisionLaw := by
  intro s t rd rd2 rs1 hserves ht hok
  have hnorm : s.p.getLsbD 127 = true := by
    cases (exec_divrem_of_serves hserves).symm.trans ht
    exact check_of_complete_ok hok
  have hp : 2 ^ 127 ≤ s.p.toNat := le_of_normalized hnorm
  cases (exec_divrem_of_normalized hserves hnorm).symm.trans ht
  rw [reg_afterOk, reg_afterOk, reg_setReg_same, reg_setReg_ne _ _ (rd2_ne_rd_of_serves hserves), reg_setReg_same,
    afterOk_flag, quotientFlag_add_lowHalf (pair_div_lt hnorm s rs1), lowHalf_mod_toNat hnorm]
  exact ⟨hp, Nat.mod_lt _ (by omega), (Nat.div_add_mod' (s.pair rs1) s.p.toNat).symm⟩

/-- Settles O36: the two states have one pair value and one P, so the commands compute the same remainder and overflow; a
quotient without overflow is `X[q]` itself. -/
theorem reducerCrossCheck : Obligations.ReducerCrossCheck := by
  intro s s' t t' rd rs1 q r a hrem hdivrem hp hlo hhi ht hok ht'
  have hnorm : s.p.getLsbD 127 = true := by
    cases (exec_rem_of_serves hrem).symm.trans ht
    exact check_of_complete_ok hok
  have hpair : s'.pair a = s.pair rs1 := by rw [State.pair, State.pair, hlo, hhi]
  cases (exec_rem_of_normalized hrem hnorm).symm.trans ht
  cases (exec_divrem_of_normalized hdivrem (hp ▸ hnorm)).symm.trans ht'
  rw [hp, hpair]
  refine ⟨rfl, ?_, ?_, fun hbelow => ?_⟩
  · rw [reg_afterOk, reg_afterOk, reg_setReg_same, reg_setReg_same]
  · rw [afterOk_flag, afterOk_flag, quotientFlag_pair_div hnorm]
  · have hfits : s.pair rs1 / s.p.toNat < 2 ^ 128 := by
      rw [← Nat.not_le, two_pow_le_pair_div_iff hnorm, Nat.not_le]
      exact hbelow
    rw [reg_afterOk, reg_afterOk, reg_setReg_same, reg_setReg_ne _ _ (rd2_ne_rd_of_serves hdivrem), reg_setReg_same,
      lowHalf_mod_toNat hnorm, lowHalf_of_lt hfits]
    exact Nat.mod_eq_sub_div_mul

end Sys2Proof.Machine
end

section
/-! SUPPORT. The values of ADDM and SUBM on residues, and the completions of the modular commands; after it the statements of
spec/43_modular.md. -/

namespace Sys2Proof.Machine

/-! ### Sums and differences of residues (R228) -/

/-- The sum of two residues is below `2·P`, so one subtraction of P reduces it, and it fits in a register. -/
theorem addmValue_toNat {a b p : Word128} (ha : a.toNat < p.toNat) (hb : b.toNat < p.toNat) :
    (addmValue a b p).toNat = (a.toNat + b.toNat) % p.toNat := by
  have hsum : subOnce (a.toNat + b.toNat) p.toNat = (a.toNat + b.toNat) % p.toNat := subOnce_eq_mod (by omega)
  have hfits : (a.toNat + b.toNat) % p.toNat < 2 ^ 128 := (Nat.mod_lt _ (by omega)).trans p.isLt
  rw [addmValue, hsum, lowHalf_of_lt hfits]

/-- The difference of two residues lies strictly between `−P` and P: it is negative exactly when it borrows, and then adding P back
once makes it a residue. -/
theorem submValue_toNat {a b p : Word128} (ha : a.toNat < p.toNat) (hb : b.toNat < p.toNat) :
    ((submValue a b p).toNat : Int) = (a.toNat - b.toNat : Int) % p.toNat := by
  have hp := p.isLt
  rw [submValue]
  split
  case isTrue hborrow =>
    have hvalue : ((a - b + p).toNat : Int) = (a.toNat - b.toNat : Int) + p.toNat := by
      rw [BitVec.toNat_add, BitVec.toNat_sub]
      omega
    rw [hvalue, ← Int.add_emod_right, Int.emod_eq_of_lt (by omega) (by omega)]
  case isFalse hborrow =>
    have hvalue : ((a - b).toNat : Int) = a.toNat - b.toNat := by
      rw [BitVec.toNat_sub]
      omega
    rw [hvalue, Int.emod_eq_of_lt (by omega) (by omega)]

/-! ### Completions (R222, R224, R226) -/

section
variable {s : State} {rd rs1 rs2 : Reg}

theorem exec_addm_of_serves (h : s.Serves (.addm rd rs1 rs2)) :
    exec (.addm rd rs1 rs2) s = .next ((s.setReg rd (addmValue (s.reg rs1) (s.reg rs2) s.p)).afterOk false) := by
  have hops : s.operands rs1 rs2 = s.latch rs1 rs2 := operands_of_serves h
  simp [exec, execAddm, hops, State.latch, noFlag]

theorem exec_subm_of_serves (h : s.Serves (.subm rd rs1 rs2)) :
    exec (.subm rd rs1 rs2) s = .next ((s.setReg rd (submValue (s.reg rs1) (s.reg rs2) s.p)).afterOk false) := by
  have hops : s.operands rs1 rs2 = s.latch rs1 rs2 := operands_of_serves h
  simp [exec, execSubm, hops, State.latch, noFlag]

/-- The one check of MULM is that P is normalized. -/
theorem exec_mulm_of_serves (h : s.Serves (.mulm rd rs1 rs2)) :
    exec (.mulm rd rs1 rs2) s =
      .next (s.complete (checked [(s.p.getLsbD 127, .modNotNormalized)]
        (.ok ⟨[(rd, lowHalf ((s.reg rs1).toNat * (s.reg rs2).toNat % s.p.toNat))], false, none⟩))) := by
  have hops : s.operands rs1 rs2 = s.latch rs1 rs2 := operands_of_serves h
  simp only [exec, execMulm, hops, finish_eq]
  rfl

theorem exec_mulm_of_normalized (h : s.Serves (.mulm rd rs1 rs2)) (hnorm : s.p.getLsbD 127 = true) :
    exec (.mulm rd rs1 rs2) s =
      .next ((s.setReg rd (lowHalf ((s.reg rs1).toNat * (s.reg rs2).toNat % s.p.toNat))).afterOk false) := by
  rw [exec_mulm_of_serves h, hnorm]
  rfl

theorem exec_mulm_of_not_normalized (h : s.Serves (.mulm rd rs1 rs2)) (hnorm : s.p.getLsbD 127 = false) :
    exec (.mulm rd rs1 rs2) s = .next (s.afterError 0x05) := by
  rw [exec_mulm_of_serves h, hnorm]
  rfl

end

/-! ### The statements -/

/-- Settles O40: each command writes the residue of its exact result, and a residue is below P, which the operands show to be
positive. -/
theorem modularClosure : Obligations.ModularClosure := by
  intro s rd rs1 rs2 i hserves ha hb hi
  have hp : 0 < s.p.toNat := by omega
  obtain rfl | rfl | ⟨rfl, hnorm⟩ := hi
  · have hvalue := addmValue_toNat ha hb
    refine ⟨_, exec_addm_of_serves hserves, ?_⟩
    rw [reg_afterOk, reg_setReg_same, hvalue]
    exact ⟨Nat.mod_lt _ hp, fun _ => rfl, nofun, nofun⟩
  · have hvalue := submValue_toNat ha hb
    have hlt := Int.emod_lt_of_pos ((s.reg rs1).toNat - (s.reg rs2).toNat : Int) (Int.natCast_pos.mpr hp)
    refine ⟨_, exec_subm_of_serves hserves, ?_⟩
    rw [reg_afterOk, reg_setReg_same]
    exact ⟨Int.ofNat_lt.mp (hvalue ▸ hlt), nofun, fun _ => hvalue, nofun⟩
  · refine ⟨_, exec_mulm_of_normalized hserves hnorm, ?_⟩
    rw [reg_afterOk, reg_setReg_same, lowHalf_mod_toNat hnorm]
    exact ⟨Nat.mod_lt _ hp, nofun, nofun, fun _ => rfl⟩

/-- Settles O37: RD2 is ADDM's one unused field, and its value is the exact sum with one conditional subtraction, narrowed. -/
theorem addmCompletes : Obligations.AddmCompletes := by
  refine ⟨encodedAs_of_checkOperands _ (fun _ => decode_addm) fun w => ?_, fun s rd rs1 rs2 hserves => ?_⟩
  · simp [Instr.wellFormed]
  · rw [exec_addm_of_serves hserves, addmValue, lowHalf_eq_ofNat_mod]
    rfl

/-- Settles O38: RD2 is SUBM's one unused field, and its value is that of `submValue`. -/
theorem submCompletes : Obligations.SubmCompletes := by
  refine ⟨encodedAs_of_checkOperands _ (fun _ => decode_subm) fun w => ?_, fun s rd rs1 rs2 hserves => ?_⟩
  · simp [Instr.wellFormed]
  · rw [exec_subm_of_serves hserves]
    rfl

/-- Settles O39: RD2 is MULM's one unused field, and its two outcomes follow bit 127 of P. -/
theorem mulmCompletes : Obligations.MulmCompletes := by
  refine ⟨encodedAs_of_checkOperands _ (fun _ => decode_mulm) fun w => ?_,
    fun s rd rs1 rs2 hserves => ⟨exec_mulm_of_normalized hserves, exec_mulm_of_not_normalized hserves⟩⟩
  simp [Instr.wellFormed]

end Sys2Proof.Machine
end

section
/-! SUPPORT. The inverse engine on a residue, and the completion of INV; after it the statements of spec/44_inverse.md. -/

namespace Sys2Proof.Machine

/-! ### The inverse of a residue (R242) -/

/-- What INV writes for a residue coprime to a normalized P is its inverse in [1, P). -/
theorem lowHalf_invMod {x p : Word128} (hnorm : p.getLsbD 127 = true) (hlt : x.toNat < p.toNat)
    (hcoprime : Nat.gcd x.toNat p.toNat = 1) :
    0 < (lowHalf (invMod x.toNat p.toNat)).toNat ∧ (lowHalf (invMod x.toNat p.toNat)).toNat < p.toNat ∧
      (lowHalf (invMod x.toNat p.toNat)).toNat * x.toNat % p.toNat = 1 := by
  have hp : 2 ^ 127 ≤ p.toNat := le_of_normalized hnorm
  have hwidth : x.toNat * p.toNat < 2 ^ 256 := (Nat.mul_lt_mul'' x.isLt p.isLt).trans_eq (pow_add 2 128 128).symm
  obtain ⟨hbelow, hinverse⟩ := invMod_spec hlt.le (by omega) hwidth hcoprime
  rw [lowHalf_of_lt (hbelow.trans p.isLt), Nat.mul_comm]
  refine ⟨Nat.pos_of_ne_zero fun hzero => ?_, hbelow, hinverse⟩
  simp [hzero] at hinverse

/-! ### Completions (R244) -/

/-- A completion is without error only if every check holds. -/
theorem checks_of_complete_ok {s : State} {l : List (Bool × ErrorCode)} {e : Effect}
    (hok : (s.complete (checked l (.ok e))).err = false) : ∀ q ∈ l, q.1 = true := by
  obtain ⟨c, -, herror⟩ | ⟨hall, -⟩ := complete_checked s l e
  · rw [herror] at hok
    cases hok
  · exact hall

section
variable {s : State} {rd rs1 : Reg}

theorem exec_inv_of_serves (h : s.Serves (.inv rd rs1)) :
    exec (.inv rd rs1) s =
      .next (s.complete (checked
        [(s.p.getLsbD 127, .modNotNormalized), (decide ((s.reg rs1).toNat < s.p.toNat), .operandRange),
          (decide (Nat.gcd (s.reg rs1).toNat s.p.toNat = 1), .notInvertible)]
        (.ok ⟨[(rd, lowHalf (invMod (s.reg rs1).toNat s.p.toNat))], false, none⟩))) := by
  have hops : s.operands rs1 0 = s.latch rs1 0 := operands_of_serves h
  simp only [exec, execInv, hops, finish_eq]
  rfl

theorem exec_inv_of_not_normalized (h : s.Serves (.inv rd rs1)) (hnorm : s.p.getLsbD 127 = false) :
    exec (.inv rd rs1) s = .next (s.afterError 0x05) := by
  rw [exec_inv_of_serves h, hnorm]
  rfl

theorem exec_inv_of_le (h : s.Serves (.inv rd rs1)) (hnorm : s.p.getLsbD 127 = true)
    (hle : s.p.toNat ≤ (s.reg rs1).toNat) : exec (.inv rd rs1) s = .next (s.afterError 0x07) := by
  rw [exec_inv_of_serves h, hnorm, decide_eq_false hle.not_gt]
  rfl

theorem exec_inv_of_not_coprime (h : s.Serves (.inv rd rs1)) (hnorm : s.p.getLsbD 127 = true)
    (hlt : (s.reg rs1).toNat < s.p.toNat) (hgcd : Nat.gcd (s.reg rs1).toNat s.p.toNat ≠ 1) :
    exec (.inv rd rs1) s = .next (s.afterError 0x08) := by
  rw [exec_inv_of_serves h, hnorm, decide_eq_true hlt, decide_eq_false hgcd]
  rfl

theorem exec_inv_of_coprime (h : s.Serves (.inv rd rs1)) (hnorm : s.p.getLsbD 127 = true)
    (hlt : (s.reg rs1).toNat < s.p.toNat) (hcoprime : Nat.gcd (s.reg rs1).toNat s.p.toNat = 1) :
    exec (.inv rd rs1) s = .next ((s.setReg rd (lowHalf (invMod (s.reg rs1).toNat s.p.toNat))).afterOk false) := by
  rw [exec_inv_of_serves h, hnorm, decide_eq_true hlt, decide_eq_true hcoprime]
  rfl

/-- An INV without error had a residue coprime to a normalized P. -/
theorem checks_of_exec_inv_ok {t : State} (h : s.Serves (.inv rd rs1)) (ht : exec (.inv rd rs1) s = .next t)
    (hok : t.err = false) :
    s.p.getLsbD 127 = true ∧ (s.reg rs1).toNat < s.p.toNat ∧ Nat.gcd (s.reg rs1).toNat s.p.toNat = 1 := by
  cases (exec_inv_of_serves h).symm.trans ht
  have hall := checks_of_complete_ok hok
  simpa using hall

end

/-! ### The statements -/

/-- Settles O41: RS2 and RD2 are INV's unused fields, its errors follow its three checks in their order, and past them the
engine's value is the inverse. -/
theorem invCompletes : Obligations.InvCompletes := by
  refine ⟨encodedAs_of_checkOperands _ (fun _ => decode_inv) fun w => ?_, fun s rd rs1 hserves =>
    ⟨exec_inv_of_not_normalized hserves, exec_inv_of_le hserves, fun hnorm hlt =>
      ⟨exec_inv_of_not_coprime hserves hnorm hlt, fun hcoprime =>
        ⟨_, exec_inv_of_coprime hserves hnorm hlt hcoprime, lowHalf_invMod hnorm hlt hcoprime⟩⟩⟩⟩
  simp [Instr.wellFormed]

/-- Settles O42: an INV without error passed its three checks, so its result is a true inverse, and the MULM finds the same
normalized P. -/
theorem inverseLaw : Obligations.InverseLaw := by
  intro s t s' rd rs1 re rx ry hinv ht hok hmulm hp hx hy
  obtain ⟨hnorm, hlt, hcoprime⟩ := checks_of_exec_inv_ok hinv ht hok
  obtain ⟨-, -, hinverse⟩ := lowHalf_invMod hnorm hlt hcoprime
  cases (exec_inv_of_coprime hinv hnorm hlt hcoprime).symm.trans ht
  rw [reg_afterOk, reg_setReg_same] at hy
  refine ⟨_, exec_mulm_of_normalized hmulm (hp ▸ hnorm), rfl, ?_⟩
  rw [reg_afterOk, reg_setReg_same, hp, hx, hy, Nat.mul_comm, hinverse]
  rfl

end Sys2Proof.Machine
end

section
/-! SUPPORT. The context constants of a normalized odd P, the Montgomery products under them, and the completions of the
Montgomery commands; after it the statements of spec/45_montgomery.md. -/

namespace Sys2Proof.Machine

/-! ### The constants of a modulus (R262, R263) -/

section
variable {p : Word128}

/-- A normalized odd P is more than half of 2^128, so 2^128 contains it once (R263 (a)); 2^127 itself is even. -/
theorem two_pow_mod_of_normalized_odd (hnorm : p.getLsbD 127 = true) (hodd : p.getLsbD 0 = true) :
    2 ^ 128 % p.toNat = 2 ^ 128 - p.toNat := by
  have hp : 2 ^ 127 ≤ p.toNat := le_of_normalized hnorm
  have hmod : p.toNat % 2 = 1 := odd_of_bit hodd
  have hlt := p.isLt
  have hrest : 2 ^ 128 - p.toNat < p.toNat := by omega
  rw [Nat.mod_eq_sub_mod hlt.le, Nat.mod_eq_of_lt hrest]

theorem contextOf_rc_toNat (hnorm : p.getLsbD 127 = true) :
    (contextOf p.toNat).rc.toNat = 2 ^ 128 - p.toNat := by
  have hp : 2 ^ 127 ≤ p.toNat := le_of_normalized hnorm
  exact lowHalf_of_lt (by omega)

theorem contextOf_rc_toNat_eq_mod (hnorm : p.getLsbD 127 = true) (hodd : p.getLsbD 0 = true) :
    (contextOf p.toNat).rc.toNat = 2 ^ 128 % p.toNat := by
  rw [contextOf_rc_toNat hnorm, two_pow_mod_of_normalized_odd hnorm hodd]

theorem contextOf_r2_toNat (hnorm : p.getLsbD 127 = true) :
    (contextOf p.toNat).r2.toNat = (contextOf p.toNat).rc.toNat * (contextOf p.toNat).rc.toNat % p.toNat := by
  rw [contextOf_rc_toNat hnorm]
  exact lowHalf_mod_toNat hnorm _

/-- The square of RC is congruent to 2^256 (R263 (b)). -/
theorem contextOf_r2_toNat_eq_mod (hnorm : p.getLsbD 127 = true) (hodd : p.getLsbD 0 = true) :
    (contextOf p.toNat).r2.toNat = 2 ^ 256 % p.toNat := by
  rw [contextOf_r2_toNat hnorm, contextOf_rc_toNat_eq_mod hnorm hodd, ← Nat.mul_mod, ← pow_add]

theorem coprime_two_pow_of_odd (hodd : p.getLsbD 0 = true) (k : Nat) : Nat.Coprime p.toNat (2 ^ k) :=
  (Nat.coprime_two_right.mpr (Nat.odd_iff.mpr (odd_of_bit hodd))).pow_right k

/-- V is the negative of the inverse of an odd P modulo 2^128 (R262, R263 (c)). -/
theorem contextOf_v_toNat (hodd : p.getLsbD 0 = true) :
    ∃ e, e < 2 ^ 128 ∧ p.toNat * e % 2 ^ 128 = 1 ∧ (contextOf p.toNat).v.toNat = (2 ^ 128 - e) % 2 ^ 128 := by
  have hwidth : p.toNat * 2 ^ 128 < 2 ^ 256 := by
    have hp := p.isLt
    omega
  obtain ⟨hbelow, hinverse⟩ := invMod_spec p.isLt.le (by norm_num) hwidth (coprime_two_pow_of_odd hodd 128)
  exact ⟨_, hbelow, hinverse, lowHalf_toNat _⟩

end

/-! ### Montgomery products under a context (R260, R264, R265) -/

/-- `s` holds an initialized context for the modulus `p` (R42). -/
structure State.HasContext (s : State) (p : Word128) : Prop where
  modulus : s.p = p
  valid : s.ctxValid = true
  odd : p.getLsbD 0 = true
  normalized : p.getLsbD 127 = true
  rc : s.rc.toNat = 2 ^ 128 - p.toNat
  r2 : s.r2.toNat = 2 ^ 256 % p.toNat
  v : s.v.toNat * p.toNat % 2 ^ 128 = 2 ^ 128 - 1

theorem hasContext_of_ctxInv {s : State} (hinv : s.CtxInv) (hvalid : s.ctxValid = true) : s.HasContext s.p := by
  obtain ⟨hodd, hnorm, hrc, hr2, hv⟩ := hinv.1 hvalid
  exact ⟨rfl, hvalid, hodd, hnorm, hrc, hr2, hv⟩

/-- The value `MontMul(a, b)` that a Montgomery command writes (R264). -/
def State.montProduct (s : State) (a b : Word128) : Word128 := lowHalf (montMul a.toNat b.toNat s.p.toNat s.v.toNat)

/-- `m` is a Montgomery form of the class of `x` modulo `p`, with radix 2^128 (R260). -/
def MontForm (p m : Word128) (x : Nat) : Prop := m.toNat ≡ x * 2 ^ 128 [MOD p.toNat]

section
variable {s : State} {p : Word128}

/-- The product is the one residue `w` with `w·2^128 ≡ a·b`, since 2^128 cancels modulo an odd P (R265). -/
theorem montProduct_toNat (hctx : s.HasContext p) {a b : Word128} {w : Nat}
    (hw : w * 2 ^ 128 ≡ a.toNat * b.toNat [MOD p.toNat]) : (s.montProduct a b).toNat = w % p.toNat := by
  obtain ⟨hlt, hprod⟩ := montMul_spec a.isLt b.isLt (le_of_normalized hctx.normalized) p.isLt hctx.v
  have hcancel : montMul a.toNat b.toNat p.toNat s.v.toNat ≡ w [MOD p.toNat] :=
    Nat.ModEq.cancel_right_of_coprime (coprime_two_pow_of_odd hctx.odd 128) (hprod.trans hw.symm)
  rw [State.montProduct, hctx.modulus, lowHalf_of_lt (hlt.trans p.isLt), ← hcancel, Nat.mod_eq_of_lt hlt]

/-- TOMONT's value (R266). -/
theorem montProduct_r2_toNat (hctx : s.HasContext p) (a : Word128) :
    (s.montProduct a s.r2).toNat = a.toNat * 2 ^ 128 % p.toNat := by
  apply montProduct_toNat hctx
  rw [hctx.r2, mul_assoc, ← pow_add]
  exact (Nat.mod_modEq _ _).symm.mul_left a.toNat

theorem montForm_montProduct_r2 (hctx : s.HasContext p) (a : Word128) : MontForm p (s.montProduct a s.r2) a.toNat := by
  rw [MontForm, montProduct_r2_toNat hctx]
  exact Nat.mod_modEq _ _

/-- MMUL of forms is a form of the product (R264). -/
theorem montForm_montProduct (hctx : s.HasContext p) {a b : Word128} {x y : Nat} (ha : MontForm p a x)
    (hb : MontForm p b y) : MontForm p (s.montProduct a b) (x * y) := by
  have hw : x * y * 2 ^ 128 * 2 ^ 128 ≡ a.toNat * b.toNat [MOD p.toNat] := by
    rw [mul_assoc (x * y), mul_mul_mul_comm]
    exact (ha.mul hb).symm
  rw [MontForm, montProduct_toNat hctx hw]
  exact Nat.mod_modEq _ _

/-- FROMMONT takes a form back to its residue (R268). -/
theorem montProduct_one_toNat (hctx : s.HasContext p) {a : Word128} {x : Nat} (ha : MontForm p a x) :
    (s.montProduct a 1).toNat = x % p.toNat := by
  apply montProduct_toNat hctx
  rw [show (1 : Word128).toNat = 1 from rfl, mul_one]
  exact ha.symm

/-- RC is the residue of 2^128 (R263 (a)). -/
theorem rc_toNat_eq_mod (hctx : s.HasContext p) : s.rc.toNat = 2 ^ 128 % p.toNat := by
  rw [hctx.rc, two_pow_mod_of_normalized_odd hctx.normalized hctx.odd]

/-- RC is the form of 1 (R273). -/
theorem montProduct_one_r2 (hctx : s.HasContext p) : s.montProduct 1 s.r2 = s.rc := by
  apply BitVec.eq_of_toNat_eq
  rw [montProduct_r2_toNat hctx, rc_toNat_eq_mod hctx, show (1 : Word128).toNat = 1 from rfl, one_mul]

/-- Multiplying by RC only reduces (R273). -/
theorem montProduct_rc_toNat (hctx : s.HasContext p) (a : Word128) :
    (s.montProduct a s.rc).toNat = a.toNat % p.toNat := by
  apply montProduct_toNat hctx
  rw [rc_toNat_eq_mod hctx]
  exact (Nat.mod_modEq _ _).symm.mul_left a.toNat

end

/-! ### Completions (R261, R262, R264, R266, R268, R270) -/

/-- How a command that needs a context completes when its value is `w` (R261). -/
def State.completeInContext (s : State) (rd : Reg) (w : Word128) : State :=
  if s.ctxValid then (s.setReg rd w).afterOk false else s.afterError 0x03

section
variable {s : State} {rd rs1 rs2 : Reg}

theorem completeInContext_of_valid (h : s.ctxValid = true) (w : Word128) :
    s.completeInContext rd w = (s.setReg rd w).afterOk false := if_pos h

theorem completeInContext_of_not_valid (h : s.ctxValid = false) (w : Word128) :
    s.completeInContext rd w = s.afterError 0x03 := if_neg (ne_true_of_eq_false h)

theorem complete_checked_ctxUninit (w : Word128) :
    s.complete (checked [(s.ctxValid, .ctxUninit)] (.ok ⟨[(rd, w)], false, none⟩)) = s.completeInContext rd w := by
  cases h : s.ctxValid
  case true => exact (completeInContext_of_valid h w).symm
  case false => exact (completeInContext_of_not_valid h w).symm

theorem exec_tomont_of_serves (h : s.Serves (.tomont rd rs1)) :
    exec (.tomont rd rs1) s = .next (s.completeInContext rd (s.montProduct (s.reg rs1) s.r2)) := by
  have hops : s.operands rs1 0 = s.latch rs1 0 := operands_of_serves h
  rw [← complete_checked_ctxUninit]
  simp only [exec, execTomont, hops, finish_eq]
  rfl

theorem exec_frommont_of_serves (h : s.Serves (.frommont rd rs1)) :
    exec (.frommont rd rs1) s = .next (s.completeInContext rd (s.montProduct (s.reg rs1) 1)) := by
  have hops : s.operands rs1 0 = s.latch rs1 0 := operands_of_serves h
  rw [← complete_checked_ctxUninit]
  simp only [exec, execFrommont, hops, finish_eq]
  rfl

theorem exec_mmul_of_serves (h : s.Serves (.mmul rd rs1 rs2)) :
    exec (.mmul rd rs1 rs2) s = .next (s.completeInContext rd (s.montProduct (s.reg rs1) (s.reg rs2))) := by
  have hops : s.operands rs1 rs2 = s.latch rs1 rs2 := operands_of_serves h
  rw [← complete_checked_ctxUninit]
  simp only [exec, execMmul, hops, finish_eq]
  rfl

theorem exec_madd_of_serves (h : s.Serves (.madd rd rs1 rs2)) :
    exec (.madd rd rs1 rs2) s = .next (s.completeInContext rd (addmValue (s.reg rs1) (s.reg rs2) s.p)) := by
  have hops : s.operands rs1 rs2 = s.latch rs1 rs2 := operands_of_serves h
  rw [← complete_checked_ctxUninit]
  simp only [exec, execMadd, hops, finish_eq]
  rfl

/-- MINIT's three checks, and the constants it installs past them. -/
theorem exec_minit_of_serves (h : s.Serves .minit) :
    exec .minit s =
      .next (s.complete (checked
        [(!s.ctxValid, .ctxReinit), (s.p.getLsbD 127, .modNotNormalized), (s.p.getLsbD 0, .modEven)]
        (.ok ⟨[], false, some (contextOf s.p.toNat)⟩))) := by
  have hops : s.operands 0 0 = s.latch 0 0 := operands_of_serves h
  simp only [exec, execMinit, hops, finish_eq]
  rfl

theorem exec_minit_of_ctxValid (h : s.Serves .minit) (hvalid : s.ctxValid = true) :
    exec .minit s = .next (s.afterError 0x04) := by
  rw [exec_minit_of_serves h, hvalid]
  rfl

theorem exec_minit_of_not_normalized (h : s.Serves .minit) (hvalid : s.ctxValid = false)
    (hnorm : s.p.getLsbD 127 = false) : exec .minit s = .next (s.afterError 0x05) := by
  rw [exec_minit_of_serves h, hvalid, hnorm]
  rfl

theorem exec_minit_of_even (h : s.Serves .minit) (hvalid : s.ctxValid = false) (hnorm : s.p.getLsbD 127 = true)
    (heven : s.p.getLsbD 0 = false) : exec .minit s = .next (s.afterError 0x06) := by
  rw [exec_minit_of_serves h, hvalid, hnorm, heven]
  rfl

theorem exec_minit_of_odd (h : s.Serves .minit) (hvalid : s.ctxValid = false) (hnorm : s.p.getLsbD 127 = true)
    (hodd : s.p.getLsbD 0 = true) :
    exec .minit s = .next ((s.writeCtx (some (contextOf s.p.toNat))).afterOk false) := by
  rw [exec_minit_of_serves h, hvalid, hnorm, hodd]
  rfl

section
variable {p : Word128} (hctx : s.HasContext p)
include hctx

theorem exec_tomont_of_hasContext (h : s.Serves (.tomont rd rs1)) :
    exec (.tomont rd rs1) s = .next ((s.setReg rd (s.montProduct (s.reg rs1) s.r2)).afterOk false) := by
  rw [exec_tomont_of_serves h, completeInContext_of_valid hctx.valid]

theorem exec_frommont_of_hasContext (h : s.Serves (.frommont rd rs1)) :
    exec (.frommont rd rs1) s = .next ((s.setReg rd (s.montProduct (s.reg rs1) 1)).afterOk false) := by
  rw [exec_frommont_of_serves h, completeInContext_of_valid hctx.valid]

theorem exec_mmul_of_hasContext (h : s.Serves (.mmul rd rs1 rs2)) :
    exec (.mmul rd rs1 rs2) s = .next ((s.setReg rd (s.montProduct (s.reg rs1) (s.reg rs2))).afterOk false) := by
  rw [exec_mmul_of_serves h, completeInContext_of_valid hctx.valid]

/-- A FROMMONT of a form completes with its residue (R268). -/
theorem exec_frommont_of_montForm (h : s.Serves (.frommont rd rs1)) {x : Nat} (hform : MontForm p (s.reg rs1) x) :
    ∃ u, exec (.frommont rd rs1) s = .next u ∧ u.err = false ∧ (u.reg rd).toNat = x % p.toNat := by
  refine ⟨_, exec_frommont_of_hasContext hctx h, rfl, ?_⟩
  rw [reg_afterOk, reg_setReg_same, montProduct_one_toNat hctx hform]

/-- A TOMONT leaves a form of its operand (R266). -/
theorem montForm_of_exec_tomont (h : s.Serves (.tomont rd rs1)) {t : State} (ht : exec (.tomont rd rs1) s = .next t) :
    MontForm p (t.reg rd) (s.reg rs1).toNat := by
  cases (exec_tomont_of_hasContext hctx h).symm.trans ht
  rw [reg_afterOk, reg_setReg_same]
  exact montForm_montProduct_r2 hctx _

/-- An MMUL of forms leaves a form of the product (R264). -/
theorem montForm_of_exec_mmul (h : s.Serves (.mmul rd rs1 rs2)) {t : State} (ht : exec (.mmul rd rs1 rs2) s = .next t)
    {x y : Nat} (hx : MontForm p (s.reg rs1) x) (hy : MontForm p (s.reg rs2) y) : MontForm p (t.reg rd) (x * y) := by
  cases (exec_mmul_of_hasContext hctx h).symm.trans ht
  rw [reg_afterOk, reg_setReg_same]
  exact montForm_montProduct hctx hx hy

end

end

/-! ### The statements -/

/-- Settles O43: a MINIT word has no operand field, its errors follow its three checks in their order, and past them the constants
are those of a normalized odd P. -/
theorem minitCompletes : Obligations.MinitCompletes := by
  refine ⟨encodedAs_of_checkOperands _ (fun _ => decode_minit) fun w => ?_, fun s hserves =>
    ⟨exec_minit_of_ctxValid hserves, exec_minit_of_not_normalized hserves, exec_minit_of_even hserves,
      fun hvalid hnorm hodd => ⟨_, _, _, exec_minit_of_odd hserves hvalid hnorm hodd, contextOf_rc_toNat hnorm,
        contextOf_rc_toNat_eq_mod hnorm hodd, contextOf_r2_toNat hnorm, contextOf_r2_toNat_eq_mod hnorm hodd,
        contextOf_v_toNat hodd⟩⟩⟩
  simp [Instr.wellFormed]

/-- Settles O48: TOMONT and MMUL leave forms of their operands and of the product, whichever state of the one P they run in, and
FROMMONT gives the residue of a form. -/
theorem montgomeryLaws : Obligations.MontgomeryLaws := by
  intro s₁ s₂ s₃ s₄ t₁ t₂ t₃ ra rx rb ry rc rd re rf p hall h₁ hx ht₁
  have hctx : ∀ s ∈ [s₁, s₂, s₃, s₄], s.HasContext p := fun s hs => by
    obtain ⟨hinv, hvalid, rfl⟩ := hall s hs
    exact hasContext_of_ctxInv hinv hvalid
  simp only [List.forall_mem_cons] at hctx
  obtain ⟨hctx₁, hctx₂, hctx₃, hctx₄, -⟩ := hctx
  have hform₁ : MontForm p (t₁.reg ra) (s₁.reg rx).toNat := montForm_of_exec_tomont hctx₁ h₁ ht₁
  constructor
  · intro h₄ hrd
    obtain ⟨u, hu, hok, hvalue⟩ := exec_frommont_of_montForm hctx₄ h₄ (hrd ▸ hform₁)
    rw [Nat.mod_eq_of_lt hx] at hvalue
    exact ⟨u, hu, hok, BitVec.eq_of_toNat_eq hvalue⟩
  · intro h₂ _ ht₂ h₃ hra hrb ht₃ h₄ hrd
    have hform₂ : MontForm p (t₂.reg rb) (s₂.reg ry).toNat := montForm_of_exec_tomont hctx₂ h₂ ht₂
    have hform₃ := montForm_of_exec_mmul hctx₃ h₃ ht₃ (hra ▸ hform₁) (hrb ▸ hform₂)
    obtain ⟨u, hu, hok, hvalue⟩ := exec_frommont_of_montForm hctx₄ h₄ (hrd ▸ hform₃)
    refine ⟨u, hu, hok, hvalue, fun s₅ h₅ hp hrx hry => ?_⟩
    have hnorm : s₅.p.getLsbD 127 = true := hp ▸ hctx₁.normalized
    refine ⟨_, exec_mulm_of_normalized h₅ hnorm, BitVec.eq_of_toNat_eq ?_⟩
    rw [reg_afterOk, reg_setReg_same, lowHalf_mod_toNat hnorm, hvalue, hp, hrx, hry]

/-- Settles O49: RC is 2^128 modulo P, which is both the form of 1 and the radix that MMUL divides out. -/
theorem mmulIdentity : Obligations.MmulIdentity := by
  intro s rd rs1 rs2 hinv hvalid
  have hctx := hasContext_of_ctxInv hinv hvalid
  refine ⟨fun hserves hone => ⟨_, exec_tomont_of_hasContext hctx hserves, rfl, ?_⟩,
    fun hserves hrc => ⟨_, exec_mmul_of_hasContext hctx hserves, rfl, ?_⟩⟩
  · rw [reg_afterOk, reg_setReg_same, hone, montProduct_one_r2 hctx]
  · rw [reg_afterOk, reg_setReg_same, hrc, montProduct_rc_toNat hctx]

/-- Settles O46: RD2 is MADD's one unused field, and its value is ADDM's, narrowed. -/
theorem maddCompletes : Obligations.MaddCompletes := by
  refine ⟨encodedAs_of_checkOperands _ (fun _ => decode_madd) fun w => ?_, fun s rd rs1 rs2 hserves =>
    ⟨fun hvalid => ?_, fun hinvalid => ?_⟩⟩
  · simp [Instr.wellFormed]
  · rw [exec_madd_of_serves hserves, completeInContext_of_valid hvalid, addmValue, lowHalf_eq_ofNat_mod]
    rfl
  · rw [exec_madd_of_serves hserves, completeInContext_of_not_valid hinvalid]

/-- Settles O47: each of the four commands completes in its context, and here there is none. -/
theorem uninitializedContextFails : Obligations.UninitializedContextFails := by
  intro s rd rs1 rs2 i hserves hinvalid hi
  obtain rfl | rfl | rfl | rfl := hi
  · rw [exec_tomont_of_serves hserves, completeInContext_of_not_valid hinvalid]
  · rw [exec_frommont_of_serves hserves, completeInContext_of_not_valid hinvalid]
  · rw [exec_mmul_of_serves hserves, completeInContext_of_not_valid hinvalid]
  · rw [exec_madd_of_serves hserves, completeInContext_of_not_valid hinvalid]

end Sys2Proof.Machine
end

section
/-! SUPPORT. The cases of doubling and addition of points (R292, R294, R295) with the values of the tangent and of the chord, and
the completions of PDBL and PADD; after it the statements of spec/46_point.md about the two commands. -/

namespace Sys2Proof.Machine

/-! ### Residues modulo P -/

/-- `modP z p` is the one natural number that is `z mod p` (R17). -/
theorem modP_eq_of_cast {z : Int} {p d : Nat} (h : (d : Int) = z % p) : modP z p = d := by
  rw [modP, ← h, Int.toNat_natCast]

theorem one_lt_of_normalized {p : Word128} (hnorm : p.getLsbD 127 = true) : 1 < p.toNat :=
  (Nat.one_lt_two_pow (by decide)).trans_le (le_of_normalized hnorm)

/-- The inverse engine on a residue modulo a 128-bit number (R242). -/
theorem invMod_spec_of_residue {d p : Nat} (hp : 1 < p) (hwidth : p < 2 ^ 128) (hd : d < p) (hcoprime : Nat.gcd d p = 1) :
    invMod d p < p ∧ d * invMod d p % p = 1 := by
  have hproduct : d * p < 2 ^ 256 := (Nat.mul_lt_mul'' (hd.trans hwidth) hwidth).trans_eq (pow_add 2 128 128).symm
  exact invMod_spec hd.le hp hproduct hcoprime

/-! ### Doubling (R292) -/

section
variable {p ca : Nat} {a : Point}

theorem dbl_of_y_eq_zero (hy : a.2 = 0) : dbl p ca a = .ok (0, 0) := if_pos hy

theorem dbl_of_not_coprime (hy : a.2 ≠ 0) (hgcd : Nat.gcd (2 * a.2 % p) p ≠ 1) : dbl p ca a = .error .notInvertible := by
  rw [dbl, if_neg hy, if_pos hgcd]

/-- The tangent: `e` is the inverse of its denominator `2·y`, and `sl` its slope. -/
theorem dbl_of_coprime (hp : 1 < p) (hwidth : p < 2 ^ 128) (hy : a.2 ≠ 0) (hcoprime : Nat.gcd (2 * a.2 % p) p = 1) :
    ∃ e sl x2 y2 : Nat, e < p ∧ 2 * a.2 % p * e % p = 1 ∧ sl = (3 * a.1 * a.1 + ca) * e % p ∧
      x2 < p ∧ (x2 : Int) = (sl * sl - 2 * a.1 : Int) % p ∧ y2 < p ∧ (y2 : Int) = (sl * (a.1 - x2) - a.2 : Int) % p ∧
      dbl p ca a = .ok (x2, y2) := by
  have hpos : 0 < p := by omega
  obtain ⟨hbelow, hinverse⟩ := invMod_spec_of_residue hp hwidth (Nat.mod_lt _ hpos) hcoprime
  refine ⟨_, _, _, _, hbelow, hinverse, rfl, modP_lt _ hpos, modP_cast _ hpos, modP_lt _ hpos, modP_cast _ hpos, ?_⟩
  rw [dbl, if_neg hy, if_neg (not_not_intro hcoprime)]

/-- Infinity is a point with y = 0, so PDBL's own case for it gives what the tangent's cases give. -/
theorem doublePoint_eq_dbl (p ca : Nat) (a : Point) : doublePoint p ca a = dbl p ca a := by
  rw [doublePoint]
  split
  case isTrue hinfinity => rw [hinfinity, dbl_of_y_eq_zero rfl]
  case isFalse => rfl

end

/-! ### Addition (R294, R295) -/

/-- Equal y coordinates that do not cancel are not 0, so PADD's doubling case has a tangent to draw. -/
theorem y_ne_zero_of_not_opposite {y z p : Nat} (heq : y = z) (hsum : (y + z) % p ≠ 0) : y ≠ 0 := by
  rintro rfl
  exact hsum (by rw [← heq, Nat.zero_mod])

section
variable {p d : Nat} {a b : Point}

theorem chord_of_not_coprime (hd : (d : Int) = (a.1 - b.1 : Int) % p) (hgcd : Nat.gcd d p ≠ 1) :
    chord p a b = .error .notInvertible := by
  rw [chord, modP_eq_of_cast hd, if_pos hgcd]

/-- The chord: `e` is the inverse of its denominator `d`, and `sl` its slope. -/
theorem chord_of_coprime (hp : 1 < p) (hwidth : p < 2 ^ 128) (hlt : d < p) (hd : (d : Int) = (a.1 - b.1 : Int) % p)
    (hcoprime : Nat.gcd d p = 1) :
    ∃ e sl cx cy : Nat, e < p ∧ d * e % p = 1 ∧ sl < p ∧ (sl : Int) = ((a.2 - b.2) * e : Int) % p ∧
      cx < p ∧ (cx : Int) = (sl * sl - a.1 - b.1 : Int) % p ∧ cy < p ∧ (cy : Int) = (sl * (a.1 - cx) - a.2 : Int) % p ∧
      chord p a b = .ok (cx, cy) := by
  have hpos : 0 < p := by omega
  obtain ⟨hbelow, hinverse⟩ := invMod_spec_of_residue hp hwidth hlt hcoprime
  refine ⟨_, _, _, _, hbelow, hinverse, modP_lt _ hpos, modP_cast _ hpos, modP_lt _ hpos, modP_cast _ hpos,
    modP_lt _ hpos, modP_cast _ hpos, ?_⟩
  rw [chord, modP_eq_of_cast hd, if_neg (not_not_intro hcoprime)]

end

section
variable {p ca : Nat} {a b : Point}

theorem addPoint_infinity_left (ha : a = (0, 0)) : addPoint p ca a b = .ok b := if_pos ha

theorem addPoint_infinity_right (hb : b = (0, 0)) : addPoint p ca a b = .ok a := by
  rw [addPoint, if_pos hb]
  split
  case isTrue ha => rw [ha, hb]
  case isFalse => rfl

variable (ha : a ≠ (0, 0)) (hb : b ≠ (0, 0))
include ha hb

theorem addPoint_of_x_ne (hx : a.1 ≠ b.1) : addPoint p ca a b = chord p a b := by
  rw [addPoint, if_neg ha, if_neg hb, if_pos hx]

theorem addPoint_of_opposite (hx : a.1 = b.1) (hy : (a.2 + b.2) % p = 0) : addPoint p ca a b = .ok (0, 0) := by
  rw [addPoint, if_neg ha, if_neg hb, if_neg (not_not_intro hx), if_pos hy]

theorem addPoint_of_y_eq (hx : a.1 = b.1) (hy : (a.2 + b.2) % p ≠ 0) (heq : a.2 = b.2) :
    addPoint p ca a b = dbl p ca a := by
  rw [addPoint, if_neg ha, if_neg hb, if_neg (not_not_intro hx), if_neg hy, if_pos heq]

theorem addPoint_of_y_ne (hx : a.1 = b.1) (hy : (a.2 + b.2) % p ≠ 0) (hne : a.2 ≠ b.2) :
    addPoint p ca a b = .error .pointDomain := by
  rw [addPoint, if_neg ha, if_neg hb, if_neg (not_not_intro hx), if_neg hy, if_neg hne]

end

/-! ### Completions (R291, R292, R294) -/

/-- The point of the pair whose even register is `r` (R34, R290). -/
def State.point (s : State) (r : Reg) : Point := ((s.reg r).toNat, (s.reg (partner r)).toNat)

/-- PDBL's range check: its point's coordinates and CURVE_A are below P (R291). -/
abbrev State.DoublingInRange (s : State) (rs1 : Reg) : Prop :=
  s.reg rs1 < s.p ∧ s.reg (partner rs1) < s.p ∧ s.curveA < s.p

/-- PADD's range check: its two points' coordinates and CURVE_A are below P (R291). -/
abbrev State.AdditionInRange (s : State) (rs1 rs2 : Reg) : Prop :=
  s.reg rs1 < s.p ∧ s.reg (partner rs1) < s.p ∧ s.reg rs2 < s.p ∧ s.reg (partner rs2) < s.p ∧ s.curveA < s.p

section
variable {s : State} {rd rs1 rs2 : Reg}

/-- A served PDBL is well formed (R114), so the checks that can fail are those of R291. -/
theorem exec_pdbl_of_serves (h : s.Serves (.pdbl rd rs1)) :
    exec (.pdbl rd rs1) s =
      .next (s.complete (checked
        [(s.p.getLsbD 127, .modNotNormalized), (decide (s.DoublingInRange rs1), .operandRange)]
        (pointResult rd (doublePoint s.p.toNat s.curveA.toNat (s.point rs1))))) := by
  have hops : s.operands rs1 0 = s.latch rs1 0 := operands_of_serves h
  have hwf : (Instr.pdbl rd rs1).wellFormed = true := wellFormed_of_serves h
  simp only [exec, execPdbl, hops, hwf, checked_true, finish_eq, Bool.decide_and, Bool.and_assoc]
  rfl

theorem exec_pdbl_of_not_normalized (h : s.Serves (.pdbl rd rs1)) (hnorm : s.p.getLsbD 127 = false) :
    exec (.pdbl rd rs1) s = .next (s.afterError 0x05) := by
  rw [exec_pdbl_of_serves h, hnorm]
  rfl

theorem exec_pdbl_of_out_of_range (h : s.Serves (.pdbl rd rs1)) (hnorm : s.p.getLsbD 127 = true)
    (hrange : ¬ s.DoublingInRange rs1) : exec (.pdbl rd rs1) s = .next (s.afterError 0x07) := by
  rw [exec_pdbl_of_serves h, hnorm, decide_eq_false hrange]
  rfl

/-- Past its checks PDBL completes with what doubling gives: an error, or the point in the destination pair. -/
theorem exec_pdbl_of_in_range (h : s.Serves (.pdbl rd rs1)) (hnorm : s.p.getLsbD 127 = true)
    (hrange : s.DoublingInRange rs1) {c : Except ErrorCode Point}
    (hdbl : dbl s.p.toNat s.curveA.toNat (s.point rs1) = c) :
    exec (.pdbl rd rs1) s = .next (s.complete (pointResult rd c)) := by
  rw [exec_pdbl_of_serves h, hnorm, decide_eq_true hrange, doublePoint_eq_dbl, hdbl]
  rfl

/-- A served PADD is well formed (R114), so the checks that can fail are those of R291. -/
theorem exec_padd_of_serves (h : s.Serves (.padd rd rs1 rs2)) :
    exec (.padd rd rs1 rs2) s =
      .next (s.complete (checked
        [(s.p.getLsbD 127, .modNotNormalized), (decide (s.AdditionInRange rs1 rs2), .operandRange)]
        (pointResult rd (addPoint s.p.toNat s.curveA.toNat (s.point rs1) (s.point rs2))))) := by
  have hops : s.operands rs1 rs2 = s.latch rs1 rs2 := operands_of_serves h
  have hwf : (Instr.padd rd rs1 rs2).wellFormed = true := wellFormed_of_serves h
  simp only [exec, execPadd, hops, hwf, checked_true, finish_eq, Bool.decide_and, Bool.and_assoc]
  rfl

theorem exec_padd_of_not_normalized (h : s.Serves (.padd rd rs1 rs2)) (hnorm : s.p.getLsbD 127 = false) :
    exec (.padd rd rs1 rs2) s = .next (s.afterError 0x05) := by
  rw [exec_padd_of_serves h, hnorm]
  rfl

theorem exec_padd_of_out_of_range (h : s.Serves (.padd rd rs1 rs2)) (hnorm : s.p.getLsbD 127 = true)
    (hrange : ¬ s.AdditionInRange rs1 rs2) : exec (.padd rd rs1 rs2) s = .next (s.afterError 0x07) := by
  rw [exec_padd_of_serves h, hnorm, decide_eq_false hrange]
  rfl

/-- Past its checks PADD completes with what addition gives: an error, or the point in the destination pair. -/
theorem exec_padd_of_in_range (h : s.Serves (.padd rd rs1 rs2)) (hnorm : s.p.getLsbD 127 = true)
    (hrange : s.AdditionInRange rs1 rs2) {c : Except ErrorCode Point}
    (hadd : addPoint s.p.toNat s.curveA.toNat (s.point rs1) (s.point rs2) = c) :
    exec (.padd rd rs1 rs2) s = .next (s.complete (pointResult rd c)) := by
  rw [exec_padd_of_serves h, hnorm, decide_eq_true hrange, hadd]
  rfl

end

/-! ### The statements -/

/-- Settles O50: RS2 and RD2 are PDBL's unused fields, its errors follow its checks in their order, and past them each case is one
of `dbl`. -/
theorem pdblCompletes : Obligations.PdblCompletes := by
  refine ⟨encodedAs_of_checkOperands _ (fun _ => decode_pdbl) fun w => ?_, fun s rd rs1 hserves =>
    ⟨exec_pdbl_of_not_normalized hserves, exec_pdbl_of_out_of_range hserves, fun hnorm hx hy hca => ?_⟩⟩
  · simp [Instr.wellFormed, and_assoc]
  · have hp : 1 < s.p.toNat := one_lt_of_normalized hnorm
    have hexec {c : Except ErrorCode Point} := exec_pdbl_of_in_range (c := c) hserves hnorm ⟨hx, hy, hca⟩
    obtain ⟨heven, -⟩ := Bool.and_eq_true_iff.mp (wellFormed_of_serves hserves)
    refine ⟨val_mod_two_of_isEven heven, partner_val_of_isEven heven, fun hzero => hexec (dbl_of_y_eq_zero hzero),
      fun hne hgcd => hexec (dbl_of_not_coprime hne hgcd), fun hne hcoprime => ?_⟩
    obtain ⟨e, sl, x2, y2, he, hinverse, hsl, hx2lt, hx2, hy2lt, hy2, hdbl⟩ :=
      dbl_of_coprime (a := s.point rs1) hp s.p.isLt hne hcoprime
    exact ⟨e, sl, x2, y2, he, hinverse, hsl, hx2lt, hx2, hy2lt, hy2, hexec hdbl⟩

/-- Settles O51: RD2 is PADD's one unused field, its errors follow its checks in their order, and past them each case is one of
`addPoint`. -/
theorem paddCompletes : Obligations.PaddCompletes := by
  refine ⟨encodedAs_of_checkOperands _ (fun _ => decode_padd) fun w => ?_, fun s rd rs1 rs2 hserves =>
    ⟨exec_padd_of_not_normalized hserves, exec_padd_of_out_of_range hserves, fun hnorm hax hay hbx hby hca => ?_⟩⟩
  · simp [Instr.wellFormed, and_assoc]
  · have hp : 1 < s.p.toNat := one_lt_of_normalized hnorm
    have hexec {c : Except ErrorCode Point} := exec_padd_of_in_range (c := c) hserves hnorm ⟨hax, hay, hbx, hby, hca⟩
    obtain ⟨heven, -⟩ := Bool.and_eq_true_iff.mp (Bool.and_eq_true_iff.mp (wellFormed_of_serves hserves)).1
    refine ⟨val_mod_two_of_isEven heven, partner_val_of_isEven heven, fun ha => hexec (addPoint_infinity_left ha),
      fun _ hb => hexec (addPoint_infinity_right hb), fun ha hb hx d hlt hd => ?_,
      fun ha hb hx hy => hexec (addPoint_of_opposite ha hb hx hy), fun ha hb hx hy heq => ?_,
      fun ha hb hx hy hne => hexec (addPoint_of_y_ne ha hb hx hy hne)⟩
    · have hadd := addPoint_of_x_ne (p := s.p.toNat) (ca := s.curveA.toNat) ha hb hx
      refine ⟨fun hgcd => hexec (hadd.trans (chord_of_not_coprime hd hgcd)), fun hcoprime => ?_⟩
      obtain ⟨e, sl, cx, cy, he, hinverse, hsllt, hsl, hcxlt, hcx, hcylt, hcy, hchord⟩ :=
        chord_of_coprime (a := s.point rs1) (b := s.point rs2) hp s.p.isLt hlt hd hcoprime
      exact ⟨e, sl, cx, cy, he, hinverse, hsllt, hsl, hcxlt, hcx, hcylt, hcy, hexec (hadd.trans hchord)⟩
    · have hne := y_ne_zero_of_not_opposite heq hy
      have hadd := addPoint_of_y_eq (ca := s.curveA.toNat) ha hb hx hy heq
      refine ⟨fun hgcd => hexec (hadd.trans (dbl_of_not_coprime hne hgcd)), fun hcoprime => ?_⟩
      obtain ⟨e, sl, x2, y2, he, hinverse, hsl, hx2lt, hx2, hy2lt, hy2, hdbl⟩ :=
        dbl_of_coprime (a := s.point rs1) hp s.p.isLt hne hcoprime
      exact ⟨e, sl, x2, y2, he, hinverse, hsl, hx2lt, hx2, hy2lt, hy2, hexec (hadd.trans hdbl)⟩

end Sys2Proof.Machine
end

section
/-! SUPPORT. The codes of an error completion (R320), and the statement about it. -/

namespace Sys2Proof.Machine

/-- ILLEGAL_OPCODE is the one error code below 2 (R320). -/
theorem two_le_errorCode_value {c : ErrorCode} (hc : c ≠ .illegalOpcode) : 2 ≤ c.value.toNat := by
  cases c with
  | illegalOpcode => exact absurd rfl hc
  | _ => decide

/-- Settles O24: a command completes without error, which leaves ERR 0, or with an error that is not ILLEGAL_OPCODE. -/
theorem errorCompletionIsPrecise : Obligations.ErrorCompletionIsPrecise := by
  intro i s t h herr
  obtain ⟨c, hc, heq⟩ | ⟨e, heq, -⟩ := exec_cases i s
  all_goals cases heq.symm.trans h
  · exact ⟨c.value, two_le_errorCode_value hc, (errorCode_value c).2, rfl⟩
  · exact absurd herr (by simp [completeOk_fields])

end Sys2Proof.Machine
end

section
/-! SUPPORT. A word is its fields packed together, and a command's word reaches the decoder's line of that command; after it the
statements of spec/30_encoding.md about decoding and encoding. -/

namespace Sys2Proof

/-- A word with RSV = 0 is its five other fields, packed (R111, R120). -/
theorem packWord_fields {w : Limb} (hrsv : rsvField w = 0) :
    packWord (opcodeField w) (rdField w) (rs1Field w) (rs2Field w) (rd2Field w) = w := by
  have hopcode : opcodeField w < 256 := Nat.mod_lt _ (by decide)
  apply BitVec.eq_of_toNat_eq
  rw [packWord_toNat _ _ _ _ _ hopcode]
  simp only [rsvField] at hrsv
  simp only [opcodeField, rdField, rs1Field, rs2Field, rd2Field, regField]
  omega

/-- Each line of the decoder takes its operands from the fields of the word and wants the other fields 0, as the encoder leaves
them. -/
theorem encode_of_decode {w : Limb} {i : Instr} (h : decode w = .ok i) : encode i = w := by
  unfold decode at h
  split at h
  case h_21 => cases h
  all_goals
    next hop =>
    obtain ⟨hrsv, hunused, -, rfl⟩ := checkOperands_eq_ok.mp h
    have hpack := packWord_fields hrsv
    simp only [List.forall_mem_cons, List.not_mem_nil, false_implies, implies_true, and_true] at hunused
    simpa only [encode, hop, hunused] using hpack

/-- A command's word reaches that command's line of the decoder, and the fields this line wants to be 0 are 0 (R113). -/
theorem decode_encode_line (i : Instr) :
    ∃ unused, decode (encode i) = checkOperands (encode i) unused i ∧ ∀ r ∈ unused, r = 0 := by
  cases i <;>
    simp only [encode, decode, opcodeField_packWord, rdField_packWord, rs1Field_packWord, rs2Field_packWord,
      rd2Field_packWord, Nat.reduceLT] <;>
    exact ⟨_, rfl, by simp⟩

theorem rsvField_encode (i : Instr) : rsvField (encode i) = 0 := by
  cases i <;> exact rsvField_packWord _ _ _ _ _ (by decide)

end Sys2Proof

namespace Sys2Proof.Machine

/-! ### The statements -/

/-- Settles O1: a command's word passes the operand checks of its line of the decoder. -/
theorem decodeOfEncode : Obligations.DecodeOfEncode := by
  intro i hwf
  obtain ⟨unused, hline, hunused⟩ := decode_encode_line i
  exact hline.trans (checkOperands_eq_ok.mpr ⟨rsvField_encode i, hunused, hwf, rfl⟩)

/-- Settles O2: a word that is a command is its fields packed, and those are the command's operands. -/
theorem encodeOfDecode : Obligations.EncodeOfDecode :=
  fun _ _ => encode_of_decode

/-- Settles O4: the reserved OPCODEs are those the opcode map does not have, and a verdict is a command or one of the two kinds
of illegal word. -/
theorem reservedOpcodesIllegal : Obligations.ReservedOpcodesIllegal := by
  rintro w b rfl
  refine ⟨(decode_eq_error_opcode_iff w).trans (reservedOpcode_iff _).symm, ?_⟩
  cases decode w with
  | ok i => simp
  | error bad => cases bad <;> simp

/-- Settles O5, by running the decoder on each word. -/
theorem specWordsDecode : Obligations.SpecWordsDecode := by
  refine ⟨?_, ?_, ?_, ?_, ?_, ?_, ?_, ?_, ?_, ?_, ?_⟩ <;> decide

end Sys2Proof.Machine
end

section
/-! SUPPORT. What a host access can do to the block, said once, and that each of the block's events keeps its invariant; after it
the statements about the steps of the machine and about the invariant. -/

namespace Sys2Proof.Machine

/-! ### What a host access does (R87, R88, R90) -/

/-- What an event that is no completion and no reset makes of a state. -/
inductive HostEffect (s : State) : State → Prop
  /-- A read of a register (R87). -/
  | answered (a : Answer) : HostEffect s (s.respond a)
  /-- An access answered ERROR (R88). -/
  | refused (a : Answer) : HostEffect s (s.busError a)
  /-- A CTRL write (R46). -/
  | ctrl (b : Bool) : HostEffect s (State.respond { s with irqEn := b } (.write .okay))
  /-- A STATUS write (R49). -/
  | status (d : Limb) : HostEffect s ((s.writeStatus d).respond (.write .okay))
  /-- A CMD write to an idle block (R141). -/
  | acceptance (w : Limb) (idle : s.flight = none) : HostEffect s ((s.accept w).respond (.write .okay))
  /-- A write of a limb of P to an idle block (R36). -/
  | modulus (l : LimbIx) (d : Limb) (idle : s.flight = none) : HostEffect s ((s.writeP l d).respond (.write .okay))
  /-- A write of a limb of CURVE_A to an idle block (R37). -/
  | curve (v : Word128) (idle : s.flight = none) : HostEffect s (State.respond { s with curveA := v } (.write .okay))
  /-- A write of a limb of an operand register to an idle block (R31). -/
  | operand (q : Reg) (v : Word128) (idle : s.flight = none) : HostEffect s ((s.setReg q v).respond (.write .okay))

theorem hostEffect_hostRead (s : State) (width : Width) (off : Nat) : HostEffect s (s.hostRead width off) := by
  obtain ⟨r, -, heq⟩ | ⟨-, heq⟩ := hostRead_cases s width off <;> rw [heq]
  · exact .answered _
  · exact .refused _

theorem hostEffect_hostWrite {s : State} {width : Width} {off : Nat} {d : Limb}
    (hreset : (Event.write width off d).resets = false) : HostEffect s (s.hostWrite width off d) := by
  obtain ⟨r, t, hr, ht, heq⟩ | ⟨-, heq⟩ := hostWrite_cases s width off d <;> rw [heq]
  case inr => exact .refused _
  obtain ⟨rfl, rfl⟩ | ⟨-, rfl⟩ | ⟨hbusy, hwrite⟩ := writeWindow_cases ht
  · obtain ⟨rfl, -, hat⟩ := target_eq_some hr
    obtain rfl := registerAt_ctrl hat
    have hd : ¬ d.getLsbD 0 = true := by simpa [Event.resets] using hreset
    rw [State.writeCtrl, if_neg hd]
    exact .ctrl _
  · exact .status d
  · have hidle : s.flight = none := (busy_eq_false_iff s).mp hbusy
    obtain ⟨-, rfl⟩ | ⟨l, -, rfl⟩ | ⟨l, -, rfl⟩ | ⟨q, l, -, rfl⟩ := hwrite
    · exact .acceptance d hidle
    · exact .modulus l d hidle
    · exact .curve _ hidle
    · exact .operand q _ hidle

/-- An event that is no completion and no reset has a host effect. -/
theorem hostEffect_of_step {s t : State} {e : Event} (hcompletion : e ≠ .completion) (hreset : e.resets = false)
    (h : step (s.before e) = .next t) : HostEffect s t := by
  cases e with
  | read width off =>
    cases (step_before_read s width off).symm.trans h
    exact hostEffect_hostRead s width off
  | write width off d =>
    cases (step_before_write s width off d).symm.trans h
    exact hostEffect_hostWrite hreset
  | resetPulse => cases hreset
  | completion => exact absurd rfl hcompletion

/-! ### The parts of the invariant -/

theorem flightInv_of_idle {t : State} (h : t.flight = none) : t.FlightInv := by
  intro f hf
  cases h.symm.trans hf

/-- Clearing DONE and ERR keeps the invariant of the in-flight command. -/
theorem flightInv_writeStatus {s : State} (h : s.FlightInv) (d : Limb) : (s.writeStatus d).FlightInv := by
  intro f hf
  obtain ⟨hword, hdone, herr⟩ := h f hf
  exact ⟨hword, by simp [hdone], by simp [herr]⟩

theorem ctxInv_of_cleared {t : State} (hctx : t.ctxValid = false) (hrc : t.rc = 0) (hr2 : t.r2 = 0) (hv : t.v = 0) :
    t.CtxInv :=
  ⟨fun hvalid => absurd (hctx.symm.trans hvalid) (by decide), fun _ => ⟨hrc, hr2, hv⟩⟩

/-- The context invariant speaks of P and the context registers only. -/
theorem ctxInv_congr {s t : State} (h : s.CtxInv) (hp : t.p = s.p) (hctx : t.ctxValid = s.ctxValid) (hrc : t.rc = s.rc)
    (hr2 : t.r2 = s.r2) (hv : t.v = s.v) : t.CtxInv := by
  unfold State.CtxInv
  rw [hp, hctx, hrc, hr2, hv]
  exact h

theorem statusInv_of_no_error {t : State} (herr : t.err = false) (hcode : t.errCode = 0) : t.StatusInv := by
  simp [State.StatusInv, herr, hcode]

theorem statusInv_congr {s t : State} (h : s.StatusInv) (herr : t.err = s.err) (hcode : t.errCode = s.errCode) :
    t.StatusInv := by
  unfold State.StatusInv
  rw [herr, hcode]
  exact h

/-- A STATUS write clears ERR and ERRCODE together (R49). -/
theorem statusInv_writeStatus {s : State} (h : s.StatusInv) (d : Limb) : (s.writeStatus d).StatusInv := by
  cases hd : d.getLsbD 2 with
  | true => exact statusInv_of_no_error (by rw [writeStatus_err, hd, Bool.not_true, Bool.and_false]) (if_pos hd)
  | false =>
    exact statusInv_congr h (by rw [writeStatus_err, hd, Bool.not_false, Bool.and_true]) (if_neg (ne_true_of_eq_false hd))

/-- An error completion sets ERR with a code of R320. -/
theorem statusInv_completeError (s : State) (c : ErrorCode) : (s.completeError c).StatusInv := by
  obtain ⟨hne, hle⟩ := errorCode_value c
  exact ⟨⟨fun _ => hne, fun _ => rfl⟩, hle⟩

/-- V times P is −1 modulo 2^128, the premise of the Montgomery reduction (R263 (c), R265). -/
theorem contextOf_v_mul_modulus {p : Word128} (hodd : p.getLsbD 0 = true) :
    (contextOf p.toNat).v.toNat * p.toNat % 2 ^ 128 = 2 ^ 128 - 1 := by
  obtain ⟨e, hlt, hinverse, hv⟩ := contextOf_v_toNat hodd
  have hpos : e ≠ 0 := by
    rintro rfl
    simp at hinverse
  have hsum : (contextOf p.toNat).v.toNat * p.toNat + p.toNat * e = 2 ^ 128 * p.toNat := by
    rw [hv, Nat.mod_eq_of_lt (by omega), mul_comm p.toNat e, ← add_mul, Nat.sub_add_cancel hlt.le]
  omega

/-- The constants MINIT writes for a normalized odd P are a valid context of it (R262, R263). -/
theorem ctxInv_of_contextOf {t : State} (hnorm : t.p.getLsbD 127 = true) (hodd : t.p.getLsbD 0 = true)
    (hctx : t.ctxValid = true) (hrc : t.rc = (contextOf t.p.toNat).rc) (hr2 : t.r2 = (contextOf t.p.toNat).r2)
    (hv : t.v = (contextOf t.p.toNat).v) : t.CtxInv := by
  refine ⟨fun _ => ⟨hodd, hnorm, ?_, ?_, ?_⟩, fun hinvalid => absurd (hctx.symm.trans hinvalid) (by decide)⟩
  · rw [hrc, contextOf_rc_toNat hnorm]
  · rw [hr2, contextOf_r2_toNat_eq_mod hnorm hodd]
  · rw [hv, contextOf_v_mul_modulus hodd]

/-- The latched P is the present one (R36, R143). -/
theorem operands_p_of_flightInv {s : State} (h : s.FlightInv) (a b : Reg) : (s.operands a b).p = s.p := by
  unfold State.operands
  split
  · next f hf =>
    obtain ⟨hword, -⟩ := h f hf
    rw [hword]
    rfl
  · rfl

/-! ### Each event keeps the invariant -/

theorem inv_of_hostEffect {s t : State} (h : HostEffect s t) (hinv : s.Inv) : t.Inv := by
  obtain ⟨hflight, hctx, hstatus⟩ := hinv
  cases h with
  | answered | refused | ctrl => exact ⟨hflight, hctx, hstatus⟩
  | status d => exact ⟨flightInv_writeStatus hflight d, hctx, statusInv_writeStatus hstatus d⟩
  | acceptance w idle => exact ⟨accept_flightInv s w, hctx, statusInv_of_no_error rfl rfl⟩
  | modulus l d idle => exact ⟨flightInv_of_idle idle, ctxInv_of_cleared rfl rfl rfl rfl, hstatus⟩
  | curve | operand => exact ⟨flightInv_of_idle ‹_›, hctx, hstatus⟩

theorem inv_reset (es : List Event) (a : Option Answer) : State.Inv { State.reset with events := es, answer := a } :=
  ⟨flightInv_of_idle rfl, ctxInv_of_cleared rfl rfl rfl rfl, statusInv_of_no_error rfl rfl⟩

theorem inv_completeError {s : State} (hinv : s.Inv) (c : ErrorCode) : (s.completeError c).Inv := by
  obtain ⟨-, hctx, -⟩ := hinv
  exact ⟨flightInv_of_idle rfl, hctx, statusInv_completeError s c⟩

theorem inv_of_exec {s t : State} {i : Instr} (hinv : s.Inv) (h : exec i s = .next t) : t.Inv := by
  obtain ⟨c, -, heq⟩ | ⟨e, heq, -, hctx⟩ := exec_cases i s
  all_goals cases heq.symm.trans h
  · exact inv_completeError hinv c
  · obtain ⟨hflight, hcontext, -⟩ := hinv
    obtain ⟨hidle, -, herr, hcode, -, hp, -⟩ := completeOk_fields s e
    refine ⟨flightInv_of_idle hidle, ?_, statusInv_of_no_error herr hcode⟩
    obtain hnone | ⟨-, -, hnorm, hodd, hsome⟩ := hctx
    · obtain ⟨hvalid, hrc, hr2, hv⟩ := completeOk_ctx_none s hnone
      exact ctxInv_congr hcontext hp hvalid hrc hr2 hv
    · rw [Latch.normalized, operands_p_of_flightInv hflight] at hnorm
      rw [Latch.oddModulus, operands_p_of_flightInv hflight] at hodd
      rw [operands_p_of_flightInv hflight] at hsome
      obtain ⟨hvalid, hrc, hr2, hv⟩ := completeOk_ctx_some s hsome
      rw [← hp] at hnorm hodd hrc hr2 hv
      exact ctxInv_of_contextOf hnorm hodd hvalid hrc hr2 hv

/-- The engine's turn completes the in-flight word, a command or not. -/
theorem inv_of_step_engine {s u t : State} {f : Flight} (hturn : s.turn = .engine f u) (hinv : u.Inv)
    (h : step s = .next t) : t.Inv := by
  cases hd : decode f.word with
  | error bad =>
    cases (step_engine_error hturn hd).symm.trans h
    exact inv_completeError hinv _
  | ok i =>
    rw [step_engine_ok hturn hd] at h
    exact inv_of_exec hinv h

theorem inv_of_step_before {s t : State} {e : Event} (hinv : s.Inv) (h : step (s.before e) = .next t) : t.Inv := by
  by_cases hcompletion : e = .completion
  · subst hcompletion
    cases hf : s.flight with
    | some f => exact inv_of_step_engine (turn_before_completion hf) hinv h
    | none =>
      cases (step_before_completion_idle hf).symm.trans h
      exact hinv
  · cases hreset : e.resets with
    | true =>
      obtain ⟨a, ha⟩ := step_before_of_resets s hreset
      cases ha.symm.trans h
      exact inv_reset _ _
    | false => exact inv_of_hostEffect (hostEffect_of_step hcompletion hreset h) hinv

/-! ### The statements -/

/-- Settles O57: the next event keeps the invariant, and with no event left the completion of the in-flight command does. -/
theorem stepKeepsInvariant : Obligations.StepKeepsInvariant := by
  intro s t hinv h
  cases hev : s.events with
  | nil =>
    cases hf : s.flight with
    | some f => exact inv_of_step_engine (turn_no_event hev hf) hinv h
    | none =>
      cases (step_no_event_idle hev hf).symm.trans h
      exact hinv
  | cons e es =>
    have hinv' : State.Inv { s with events := es } := hinv
    rw [eq_before hev] at h
    exact inv_of_step_before hinv' h

/-- Settles O58: nothing is in flight, no context is valid and no error is set after reset. -/
theorem resetHasInvariant : Obligations.ResetHasInvariant :=
  inv_reset [] none

/-- Settles O59: the invariant says what the in-flight command is. -/
theorem invariantServesCommand : Obligations.InvariantServesCommand := by
  rintro s f i ⟨hflight, -, -⟩ hf hdecode
  obtain ⟨rfl, -, -⟩ := hflight f hf
  exact ⟨hf, hdecode⟩

/-- Settles O22: each host effect leaves FLAG and the events to come, and sets no bit but BUSY and BUSERR. -/
theorem hostEventFrame : Obligations.HostEventFrame := by
  intro s t e hcompletion hreset h
  cases hostEffect_of_step hcompletion hreset h with
  | answered | refused | ctrl | curve | operand => exact ⟨rfl, id, id, id, id, rfl⟩
  | status d => exact ⟨rfl, id, by simp +contextual, by simp +contextual, id, rfl⟩
  | acceptance w idle => exact ⟨rfl, fun _ => rfl, nofun, nofun, id, rfl⟩
  | modulus l d idle => exact ⟨rfl, id, id, id, nofun, rfl⟩

/-- Settles O19: a host access and rest have a next state, and so has every completion. -/
theorem stepNeverStops : Obligations.StepNeverStops := by
  intro s
  cases hturn : s.turn with
  | engine f t =>
    obtain ⟨u, hu, -⟩ := step_engine_done hturn
    exact ⟨u, hu⟩
  | outside t | rest t => exact ⟨t, by rw [step, hturn]⟩

/-- A run of one step more begins with that step. -/
theorem run_succ_of_step {s t : State} (h : step s = .next t) (k : Nat) :
    Host.Core.run core (k + 1) s = Host.Core.run core k t := by
  have hstep : core.step s = .next t := h
  simp only [Host.Core.run, hstep]

/-- Settles O20, by induction on the events to come: a completion or a reset ends the flight, and any other event leaves the
command in flight with one event less. -/
theorem acceptedCommandEnds : Obligations.AcceptedCommandEnds := by
  intro s hbusy
  induction hev : s.events generalizing s with
  | nil =>
    obtain ⟨f, hf⟩ := (busy_eq_true_iff s).mp hbusy
    obtain ⟨t, ht, hidle, hdone, -⟩ := step_engine_done (turn_no_event hev hf)
    exact ⟨1, t, le_rfl, run_succ_of_step ht 0, (busy_eq_false_iff t).mpr hidle, .inl hdone⟩
  | cons e es ih =>
    obtain ⟨u, rfl, rfl⟩ : ∃ u : State, u.before e = s ∧ u.events = es := ⟨_, (eq_before hev).symm, rfl⟩
    by_cases hcompletion : e = .completion
    · subst hcompletion
      obtain ⟨f, hf⟩ := (busy_eq_true_iff u).mp hbusy
      obtain ⟨t, ht, hidle, hdone, -⟩ := step_engine_done (turn_before_completion hf)
      exact ⟨1, t, by simp, run_succ_of_step ht 0, (busy_eq_false_iff t).mpr hidle, .inl hdone⟩
    · cases hreset : e.resets with
      | true =>
        obtain ⟨a, ha⟩ := step_before_of_resets u hreset
        exact ⟨1, _, by simp, run_succ_of_step ha 0, rfl, .inr rfl⟩
      | false =>
        obtain ⟨t, ht⟩ := stepNeverStops (u.before e)
        obtain ⟨-, hkept, -, -, -, hevents⟩ := hostEventFrame u t e hcompletion hreset ht
        obtain ⟨k, v, hk, hrun, hend⟩ := ih t (hkept hbusy) hevents
        exact ⟨k + 1, v, by simpa using hk, (run_succ_of_step ht k).trans hrun, hend⟩

/-- Settles O14: the block is the reset block whatever it was, and so a completion finds nothing in flight. -/
theorem resetCancelsCommand : Obligations.ResetCancelsCommand := by
  intro s e he
  obtain ⟨a, ha⟩ := step_before_of_resets s he
  exact ⟨_, ha, rfl, rfl, rfl, rfl, step_before_completion_idle rfl⟩

/-- Settles O6: at a completion event and with no event left it is the engine's turn. -/
theorem stepRunsDecodedCommand : Obligations.StepRunsDecodedCommand :=
  fun _ _ _ hf hdecode => ⟨step_engine_ok (turn_before_completion hf) hdecode,
    fun hev => step_engine_ok (turn_no_event hev hf) hdecode⟩

end Sys2Proof.Machine
end

section
/-! SUPPORT. What a limb write and a completion leave of the register window, and where the operand registers stand in it; after
it the statements about the window. -/

namespace Sys2Proof.Machine

/-! ### The window after a limb write (R31, R85) -/

theorem window_writeP (s : State) (l : LimbIx) (d : Limb) {r : WindowReg} (hstatus : r ≠ .status)
    (hctx : ∀ k, r ≠ .rc k ∧ r ≠ .r2 k ∧ r ≠ .v k) :
    (s.writeP l d).window r = if r = .p l then d else s.window r := by
  cases r with
  | status => exact absurd rfl hstatus
  | rc k => exact absurd rfl (hctx k).1
  | r2 k => exact absurd rfl (hctx k).2.1
  | v k => exact absurd rfl (hctx k).2.2
  | p k => simp only [State.window, writeP_p, getLimb_putLimb, WindowReg.p.injEq]
  | id | ctrl | cmd | curveA | x => rfl

theorem window_writeCurveA (s : State) (l : LimbIx) (d : Limb) (r : WindowReg) :
    State.window { s with curveA := putLimb s.curveA l d } r = if r = .curveA l then d else s.window r := by
  cases r with
  | curveA k => simp only [State.window, getLimb_putLimb, WindowReg.curveA.injEq]
  | id | ctrl | status | cmd | p | rc | r2 | v | x => rfl

theorem window_setReg_putLimb (s : State) (q : Reg) (l : LimbIx) (d : Limb) (r : WindowReg) :
    (s.setReg q (putLimb (s.reg q) l d)).window r = if r = .x q l then d else s.window r := by
  cases r with
  | x r k =>
    simp only [State.window, WindowReg.x.injEq]
    by_cases hr : r = q
    · subst hr
      simp only [reg_setReg_same, getLimb_putLimb, true_and]
    · rw [reg_setReg_ne s _ (Ne.symm hr), if_neg fun h => hr h.1]
  | id | ctrl | status | cmd | p | curveA | rc | r2 | v => rfl

/-- An idle block takes a write of a limb of P, CURVE_A or X, and each word of the window is then the data or as before, but for
STATUS and the context constants after a write of P. -/
theorem exists_writeWindow_limb {s : State} {r : WindowReg} (d : Limb) (hidle : s.flight = none)
    (hlimb : (∃ l, r = .p l) ∨ (∃ l, r = .curveA l) ∨ (∃ q l, r = .x q l)) :
    ∃ t, s.writeWindow r d = some t ∧
      ∀ r', (∀ l, r = .p l → r' ≠ .status ∧ ∀ k, r' ≠ .rc k ∧ r' ≠ .r2 k ∧ r' ≠ .v k) →
        t.window r' = if r' = r then d else s.window r' := by
  have hbusy := (busy_eq_false_iff s).mpr hidle
  obtain ⟨l, rfl⟩ | ⟨l, rfl⟩ | ⟨q, l, rfl⟩ := hlimb
  · refine ⟨s.writeP l d, by simp [State.writeWindow, hbusy], fun r' hkept => ?_⟩
    obtain ⟨hstatus, hctx⟩ := hkept l rfl
    exact window_writeP s l d hstatus hctx
  · exact ⟨_, by simp [State.writeWindow, hbusy], fun r' _ => window_writeCurveA s l d r'⟩
  · exact ⟨_, by simp [State.writeWindow, hbusy], fun r' _ => window_setReg_putLimb s q l d r'⟩

/-- An answer is not in the window. -/
@[simp] theorem window_respond (s : State) (a : Answer) (r : WindowReg) : (s.respond a).window r = s.window r := by
  cases r <;> rfl

/-! ### The words of a read (R85, R87) -/

theorem getLimb_limb0_eq_ofNat (v : Word128) : getLimb v .limb0 = BitVec.ofNat 64 (v.toNat % 2 ^ 64) :=
  BitVec.eq_of_toNat_eq (by simp [getLimb_limb0_toNat])

theorem getLimb_limb1_eq_ofNat (v : Word128) : getLimb v .limb1 = BitVec.ofNat 64 (v.toNat / 2 ^ 64) := by
  have hlt := v.isLt
  apply BitVec.eq_of_toNat_eq
  rw [getLimb_limb1_toNat, BitVec.toNat_ofNat, Nat.mod_eq_of_lt (by omega)]

/-- The operand registers stand from 0x100 up, 16 bytes each (R85). -/
theorem registerAt_x_limb0 (i : Reg) : registerAt (0x100 + 16 * i) = some (.x i .limb0) := by
  decide +revert

theorem registerAt_x_limb1 (i : Reg) : registerAt (0x108 + 16 * i) = some (.x i .limb1) := by
  decide +revert

theorem step_before_read_of_registerAt (s : State) {off : Nat} {r : WindowReg} {d : Limb} (h8 : off % 8 = 0)
    (hr : registerAt off = some r) (hd : s.window r = d) :
    step (s.before (.read .w64 off)) = .next { s with answer := some (.read .okay d) } := by
  rw [step_before_read, hostRead_of_registerAt s h8 hr, hd, State.respond]

/-! ### The window after a completion (R146) -/

/-- A completion without a context write leaves every word of the window but STATUS and the registers its effect writes. -/
theorem window_completeOk (s : State) (e : Effect) {r : WindowReg} (hstatus : r ≠ .status)
    (hx : ∀ q l, r = .x q l → q ∉ e.writes.map Prod.fst)
    (hctx : e.ctx ≠ none → ∀ l, r ≠ .rc l ∧ r ≠ .r2 l ∧ r ≠ .v l) : (s.completeOk e).window r = s.window r := by
  obtain ⟨-, -, -, -, -, hp, hcurveA, hcmd, hirqEn, -, -, -⟩ := completeOk_fields s e
  have hcontext (hr : ¬ ∀ l, r ≠ .rc l ∧ r ≠ .r2 l ∧ r ≠ .v l) :
      (s.completeOk e).rc = s.rc ∧ (s.completeOk e).r2 = s.r2 ∧ (s.completeOk e).v = s.v :=
    (completeOk_ctx_none s (by_contra fun hsome => hr (hctx hsome))).2
  cases r with
  | id => rfl
  | status => exact absurd rfl hstatus
  | ctrl => simp only [State.window, State.ctrlWord, hirqEn]
  | cmd => exact hcmd
  | p l => simp only [State.window, hp]
  | curveA l => simp only [State.window, hcurveA]
  | rc l => simp only [State.window, (hcontext fun h => (h l).1 rfl).1]
  | r2 l => simp only [State.window, (hcontext fun h => (h l).2.1 rfl).2.1]
  | v l => simp only [State.window, (hcontext fun h => (h l).2.2 rfl).2.2]
  | x q l => simp only [State.window, reg_completeOk_of_not_mem s e (hx q l rfl)]

theorem window_completeError (s : State) (c : ErrorCode) {r : WindowReg} (hstatus : r ≠ .status) :
    (s.completeError c).window r = s.window r := by
  cases r with
  | status => exact absurd rfl hstatus
  | _ => rfl

/-! ### The statements -/

/-- Settles O11: an idle block takes the write, and its effect replaces the one word. -/
theorem limbWriteChangesOneWord : Obligations.LimbWriteChangesOneWord := by
  intro s off r d hidle h8 hr hlimb
  obtain ⟨t, hw, hwindow⟩ := exists_writeWindow_limb d hidle hlimb
  refine ⟨_, by rw [step_before_write, hostWrite_of_registerAt h8 hr hw], rfl, ?_, fun r' hne hkept => ?_⟩
  · have hself : ∀ l, r = .p l → r ≠ .status ∧ ∀ k, r ≠ .rc k ∧ r ≠ .r2 k ∧ r ≠ .v k := by
      rintro l rfl
      exact ⟨nofun, fun _ => ⟨nofun, nofun, nofun⟩⟩
    rw [window_respond, hwindow r hself, if_pos rfl]
  · rw [window_respond, hwindow r' hkept, if_neg hne]

/-- Settles O15: each offset reaches its register of the address map, whose word is a constant, a field or a limb. -/
theorem addressMapReads : Obligations.AddressMapReads := by
  intro s reads limb0 limb1
  have hlimb0 {off : Nat} {r : WindowReg} {v : Word128} (h8 : off % 8 = 0) (hr : registerAt off = some r)
      (hv : s.window r = getLimb v .limb0) : reads off (limb0 v) :=
    step_before_read_of_registerAt s h8 hr (hv.trans (getLimb_limb0_eq_ofNat v))
  have hlimb1 {off : Nat} {r : WindowReg} {v : Word128} (h8 : off % 8 = 0) (hr : registerAt off = some r)
      (hv : s.window r = getLimb v .limb1) : reads off (limb1 v) :=
    step_before_read_of_registerAt s h8 hr (hv.trans (getLimb_limb1_eq_ofNat v))
  exact ⟨step_before_read_of_registerAt s rfl (r := .id) rfl rfl,
    step_before_read_of_registerAt s rfl (r := .ctrl) rfl (ctrlWord_eq_ite s),
    step_before_read_of_registerAt s rfl (r := .cmd) rfl rfl,
    hlimb0 rfl (r := .p .limb0) rfl rfl, hlimb1 rfl (r := .p .limb1) rfl rfl,
    hlimb0 rfl (r := .curveA .limb0) rfl rfl, hlimb1 rfl (r := .curveA .limb1) rfl rfl,
    hlimb0 rfl (r := .rc .limb0) rfl rfl, hlimb1 rfl (r := .rc .limb1) rfl rfl,
    hlimb0 rfl (r := .r2 .limb0) rfl rfl, hlimb1 rfl (r := .r2 .limb1) rfl rfl,
    hlimb0 rfl (r := .v .limb0) rfl rfl, hlimb1 rfl (r := .v .limb1) rfl rfl,
    fun i => ⟨hlimb0 (by omega) (registerAt_x_limb0 i) rfl, hlimb1 (by omega) (registerAt_x_limb1 i) rfl⟩⟩

/-- Settles O25: an error completion writes STATUS only, and another one the destinations of its command and, for a MINIT, the
context. -/
theorem completionFrame : Obligations.CompletionFrame := by
  intro i s t h
  obtain ⟨c, -, heq⟩ | ⟨e, heq, hwrites, hctx⟩ := exec_cases i s
  all_goals cases heq.symm.trans h
  · exact ⟨rfl, rfl, rfl, rfl, rfl, rfl, fun _ => rfl, fun r hstatus _ _ => window_completeError s c hstatus⟩
  · obtain ⟨hidle, hdone, -, -, -, -, -, -, hirqEn, hbusErr, hevents, hanswer⟩ := completeOk_fields s e
    have hminit : e.ctx ≠ none → i = .minit := fun hsome => (hctx.resolve_left hsome).1
    refine ⟨hdone, (busy_eq_false_iff _).mpr hidle, by rw [State.irq, hdone, hirqEn, Bool.true_and], hbusErr, hevents,
      hanswer, fun hne => ?_, fun r hstatus hx hkept => ?_⟩
    · have hnone : e.ctx = none := by_contra fun hsome => hne (hminit hsome)
      exact (completeOk_ctx_none s hnone).1
    · exact window_completeOk s e hstatus (fun q l hr => hwrites ▸ hx q l hr) fun hsome => hkept (hminit hsome)

end Sys2Proof.Machine
end

section
/-! SUPPORT. A command's result as a function of the operands it names, and a completion as a function of the result; after it the
statement about what a result depends on. -/

namespace Sys2Proof.Machine

/-! ### Which registers a result writes (R32) -/

/-- A result without error writes exactly the registers `dests`. -/
def Result.WritesTo (result : Result) (dests : List Reg) : Prop :=
  ∀ e, result = .ok e → e.writes.map Prod.fst = dests

theorem writesTo_ok (e : Effect) : Result.WritesTo (.ok e) (e.writes.map Prod.fst) := by
  rintro _ ⟨⟩
  rfl

theorem writesTo_checked (l : List (Bool × ErrorCode)) {result : Result} {dests : List Reg} (h : result.WritesTo dests) :
    (checked l result).WritesTo dests := by
  obtain ⟨c, heq, -⟩ | ⟨heq, -⟩ := checked_cases l result <;> rw [heq]
  · exact nofun
  · exact h

theorem writesTo_pointResult (rd : Reg) (c : Except ErrorCode Point) : (pointResult rd c).WritesTo [rd, partner rd] := by
  cases c with
  | error code => exact nofun
  | ok c => exact writesTo_ok _

/-! ### One result in two states (R143) -/

/-- The context registers of two states are the same. -/
structure State.SameContext (s s' : State) : Prop where
  p : s.p = s'.p
  curveA : s.curveA = s'.curveA
  rc : s.rc = s'.rc
  r2 : s.r2 = s'.r2
  v : s.v = s'.v
  ctxValid : s.ctxValid = s'.ctxValid

/-- Two states that serve a command with the same values in its source registers and the same context give it one result. -/
theorem exists_result_of_same_sources {i : Instr} {s s' : State} (h : s.Serves i) (h' : s'.Serves i)
    (hsources : ∀ r ∈ i.sources, s.reg r = s'.reg r) (hctx : s.SameContext s') :
    ∃ result : Result, exec i s = .next (s.complete result) ∧ exec i s' = .next (s'.complete result) ∧
      result.WritesTo i.dests := by
  have hops := operands_of_serves h
  have hops' := operands_of_serves h'
  obtain ⟨hp, hcurveA, -, hr2, hv, hvalid⟩ := hctx
  cases i
  all_goals
    simp only [Instr.src1, Instr.src2] at hops hops'
    simp only [Instr.sources, List.forall_mem_cons, List.not_mem_nil, false_implies, implies_true, and_true] at hsources
    simp only [exec, execNop, execAdd, execSub, execMul, execEq, execIszero, execIsone, execRem, execDivrem, execAddm, execSubm,
      execMulm, execInv, execMinit, execTomont, execFrommont, execMmul, execMadd, execPadd, execPdbl, finish_eq, hops, hops',
      State.latch, Latch.dividend, Latch.normalized, Latch.oddModulus, Latch.inRange, Latch.pointA, Latch.pointB, overflowFlag,
      montResult, hsources, hp, hcurveA, hr2, hv, hvalid]
    refine ⟨_, rfl, rfl, ?_⟩
  case padd | pdbl => exact writesTo_checked _ (writesTo_pointResult _ _)
  case mul | rem | divrem | mulm | inv | minit | tomont | frommont | mmul | madd => exact writesTo_checked _ (writesTo_ok _)
  all_goals exact writesTo_ok _

/-! ### One completion in two states (R146) -/

/-- The last write to a register decides its value, whatever the state. -/
theorem reg_writeRegs_congr {s s' : State} {ws : List (Reg × Word128)} {r : Reg}
    (h : r ∈ ws.map Prod.fst ∨ s.reg r = s'.reg r) : (s.writeRegs ws).reg r = (s'.writeRegs ws).reg r := by
  induction ws generalizing s s' with
  | nil => simpa using h
  | cons rv ws ih =>
    rw [writeRegs_cons, writeRegs_cons]
    apply ih
    by_cases hr : rv.1 = r
    · exact .inr (by rw [hr, reg_setReg_same, reg_setReg_same])
    · obtain hmem | hsame := h
      · exact .inl ((List.mem_cons.mp hmem).resolve_left (Ne.symm hr))
      · exact .inr (by rw [reg_setReg_ne _ _ hr, reg_setReg_ne _ _ hr, hsame])

/-- A completion's register file is that of its writes. -/
theorem x_completeOk (s : State) (e : Effect) : (s.completeOk e).x = (s.writeRegs e.writes).x := by
  cases hctx : e.ctx <;> simp [State.completeOk, hctx]

/-- The context after a completion is the effect's, or the state's. -/
theorem sameContext_completeOk {s s' : State} (hctx : s.SameContext s') (e : Effect) :
    (s.completeOk e).SameContext (s'.completeOk e) := by
  obtain ⟨-, -, -, -, -, hp, hcurveA, -⟩ := completeOk_fields s e
  obtain ⟨-, -, -, -, -, hp', hcurveA', -⟩ := completeOk_fields s' e
  cases hc : e.ctx with
  | none =>
    obtain ⟨hvalid, hrc, hr2, hv⟩ := completeOk_ctx_none s hc
    obtain ⟨hvalid', hrc', hr2', hv'⟩ := completeOk_ctx_none s' hc
    exact ⟨by rw [hp, hp', hctx.p], by rw [hcurveA, hcurveA', hctx.curveA], by rw [hrc, hrc', hctx.rc],
      by rw [hr2, hr2', hctx.r2], by rw [hv, hv', hctx.v], by rw [hvalid, hvalid', hctx.ctxValid]⟩
  | some c =>
    obtain ⟨hvalid, hrc, hr2, hv⟩ := completeOk_ctx_some s hc
    obtain ⟨hvalid', hrc', hr2', hv'⟩ := completeOk_ctx_some s' hc
    exact ⟨by rw [hp, hp', hctx.p], by rw [hcurveA, hcurveA', hctx.curveA], by rw [hrc, hrc'], by rw [hr2, hr2'],
      by rw [hv, hv'], by rw [hvalid, hvalid']⟩

/-! ### The statement -/

/-- Settles O26: both states complete with one result, and a result decides all that a completion writes. -/
theorem resultDependsOnNamedSources : Obligations.ResultDependsOnNamedSources := by
  intro i s s' t t' h h' hsources hp hcurveA hrc hr2 hv hvalid ht ht'
  have hctx : s.SameContext s' := ⟨hp, hcurveA, hrc, hr2, hv, hvalid⟩
  obtain ⟨result, heq, heq', hwrites⟩ := exists_result_of_same_sources h h' hsources hctx
  cases heq.symm.trans ht
  cases heq'.symm.trans ht'
  cases result with
  | error c => exact ⟨rfl, rfl, rfl, hvalid, hrc, hr2, hv, nofun⟩
  | ok e =>
    obtain ⟨-, -, hrc, hr2, hv, hvalid⟩ := sameContext_completeOk hctx e
    refine ⟨rfl, rfl, rfl, hvalid, hrc, hr2, hv, fun _ r hr => ?_⟩
    rw [← hwrites e rfl] at hr
    have hreg : (s.writeRegs e.writes).reg r = (s'.writeRegs e.writes).reg r := reg_writeRegs_congr (.inl hr)
    rwa [reg_congr (x_completeOk s e).symm, reg_congr (x_completeOk s' e).symm] at hreg

end Sys2Proof.Machine
end

section
/-! SUPPORT. What determines a Montgomery product under a context; after it the statements of spec/45_montgomery.md about the
values of MMUL, TOMONT and FROMMONT. -/

namespace Sys2Proof.Machine

/-- A Montgomery product is a residue, and the radix times it is the product of the factors (R265). -/
theorem montProduct_spec {s : State} {p : Word128} (hctx : s.HasContext p) (a b : Word128) :
    (s.montProduct a b).toNat < p.toNat ∧ (s.montProduct a b).toNat * 2 ^ 128 ≡ a.toNat * b.toNat [MOD p.toNat] := by
  obtain ⟨hlt, hprod⟩ := montMul_spec a.isLt b.isLt (le_of_normalized hctx.normalized) p.isLt hctx.v
  rw [State.montProduct, hctx.modulus, lowHalf_of_lt (hlt.trans p.isLt)]
  exact ⟨hlt, hprod⟩

/-- A command that completes in its context writes its value, or fails for want of a context (R261). -/
theorem exec_cases_of_completeInContext {s : State} {i : Instr} {rd : Reg} {w : Word128}
    (h : exec i s = .next (s.completeInContext rd w)) :
    (s.ctxValid = true → exec i s = .next ((s.setReg rd w).afterOk false)) ∧
      (s.ctxValid = false → exec i s = .next (s.afterError 0x03)) :=
  ⟨fun hvalid => by rw [h, completeInContext_of_valid hvalid],
    fun hinvalid => by rw [h, completeInContext_of_not_valid hinvalid]⟩

/-! ### The statements -/

/-- Settles O44: RD2, and for the conversions RS2, are unused, and each command's value is `montMul` of its two factors. -/
theorem montgomeryProductsComplete : Obligations.MontgomeryProductsComplete := by
  refine ⟨encodedAs_of_checkOperands _ (fun _ => decode_mmul) fun w => ?_,
    encodedAs_of_checkOperands _ (fun _ => decode_tomont) fun w => ?_,
    encodedAs_of_checkOperands _ (fun _ => decode_frommont) fun w => ?_, fun s i rd rs1 rs2 a b hserves ha hi => ?_⟩
  case refine_4 =>
    subst ha
    obtain ⟨rfl, rfl⟩ | ⟨rfl, rfl⟩ | ⟨rfl, rfl⟩ := hi
    · exact exec_cases_of_completeInContext (exec_mmul_of_serves hserves)
    · exact exec_cases_of_completeInContext (exec_tomont_of_serves hserves)
    · exact exec_cases_of_completeInContext (exec_frommont_of_serves hserves)
  all_goals simp [Instr.wellFormed]

/-- Settles O45: under a context the three commands write Montgomery products, by the second factor 2^256 mod P and 1 for the
conversions. -/
theorem montgomeryResults : Obligations.MontgomeryResults := by
  intro s rd rs1 rs2 hinv hvalid
  have hctx := hasContext_of_ctxInv hinv hvalid
  refine ⟨fun hserves => ?_, fun hserves => ?_, fun hserves => ?_⟩
  · obtain ⟨hlt, hprod⟩ := montProduct_spec hctx (s.reg rs1) (s.reg rs2)
    exact ⟨_, exec_mmul_of_hasContext hctx hserves, hlt, hprod⟩
  · have hvalue : s.montProduct (s.reg rs1) s.r2 = BitVec.ofNat 128 ((s.reg rs1).toNat * 2 ^ 128 % s.p.toNat) := by
      rw [← montProduct_r2_toNat hctx, BitVec.ofNat_toNat, BitVec.setWidth_eq]
    rw [exec_tomont_of_hasContext hctx hserves, hvalue]
    rfl
  · obtain ⟨hlt, hprod⟩ := montProduct_spec hctx (s.reg rs1) 1
    rw [show (1 : Word128).toNat = 1 from rfl, mul_one] at hprod
    exact ⟨_, exec_frommont_of_hasContext hctx hserves, hlt, hprod⟩

end Sys2Proof.Machine
end

section
/-! SUPPORT. The chord and the tangent as lines over the integers modulo P, whatever P, and the symmetry of point addition; after
it the statements of spec/46_point.md that hold for every P or every odd one. -/

namespace Sys2Proof.Machine

/-! ### Residues in `ZMod p` (R17) -/

theorem natCast_of_emod {p d : Nat} {z : Int} (h : (d : Int) = z % p) : (d : ZMod p) = z := by
  have hcast := congrArg (Int.cast : Int → ZMod p) h
  rwa [ZMod.intCast_mod, Int.cast_natCast] at hcast

theorem eq_of_natCast_eq {p x y : Nat} (hx : x < p) (hy : y < p) (h : (x : ZMod p) = y) : x = y :=
  ((ZMod.natCast_eq_natCast_iff x y p).mp h).eq_of_lt_of_lt hx hy

/-- A number that is 1 modulo `p` (R17) casts to 1. -/
theorem natCast_eq_one_of_mod {p n : Nat} (h : n % p = 1) : (n : ZMod p) = 1 := by
  rw [← ZMod.natCast_mod, h, Nat.cast_one]

/-- A sum divisible by `p` is a pair of opposites. -/
theorem natCast_eq_neg_iff {p x y : Nat} : (x : ZMod p) = -y ↔ (x + y) % p = 0 := by
  rw [eq_neg_iff_add_eq_zero, ← Nat.cast_add, ZMod.natCast_eq_zero_iff, Nat.dvd_iff_mod_eq_zero]

/-- Modulo an odd number only 0 is its own opposite. -/
theorem eq_zero_of_self_opposite {p y : Nat} (hodd : p % 2 = 1) (hy : y < p) (h : (y + y) % p = 0) : y = 0 := by
  rw [← mul_two] at h
  have hcoprime : Nat.Coprime p 2 := Nat.coprime_two_right.mpr (Nat.odd_iff.mpr hodd)
  exact Nat.eq_zero_of_dvd_of_lt (hcoprime.dvd_of_dvd_mul_right (Nat.dvd_of_mod_eq_zero h)) hy

/-! ### Lines (R292, R294) -/

/-- `c` is the reflection of the third point that the line of slope `sl` through `a` has in common with a curve it meets in `a`
and `b`, with coordinates below `p`. -/
structure LineSum (p : Nat) (a b : Point) (sl : ZMod p) (c : Point) : Prop where
  x_lt : c.1 < p
  y_lt : c.2 < p
  x : (c.1 : ZMod p) = sl ^ 2 - a.1 - b.1
  y : (c.2 : ZMod p) = sl * (a.1 - c.1) - a.2

section
variable {p : Nat} {a b c c' : Point} {sl : ZMod p}

theorem LineSum.unique (h : LineSum p a b sl c) (h' : LineSum p a b sl c') : c = c' := by
  have hx : (c.1 : ZMod p) = c'.1 := h.x.trans h'.x.symm
  have hy : (c.2 : ZMod p) = c'.2 := by rw [h.y, h'.y, hx]
  exact Prod.ext (eq_of_natCast_eq h.x_lt h'.x_lt hx) (eq_of_natCast_eq h.y_lt h'.y_lt hy)

/-- The line through both points can be started at either. -/
theorem LineSum.symm (h : LineSum p a b sl c) (hsl : sl * (a.1 - b.1) = a.2 - b.2) : LineSum p b a sl c where
  x_lt := h.x_lt
  y_lt := h.y_lt
  x := by rw [h.x]; ring
  y := by rw [h.y]; linear_combination hsl

end

section
variable {p : Nat} {a b : Point} (hp : 1 < p) (hwidth : p < 2 ^ 128)
include hp hwidth

/-- A chord with an invertible denominator. -/
theorem chord_lineSum (hunit : IsUnit (a.1 - b.1 : ZMod p)) :
    ∃ (sl : ZMod p) (c : Point), sl * (a.1 - b.1) = a.2 - b.2 ∧ LineSum p a b sl c ∧ chord p a b = .ok c := by
  have hpos : 0 < p := by omega
  have hd := modP_cast ((a.1 : Int) - b.1) hpos
  have hdcast : (modP ((a.1 : Int) - b.1) p : ZMod p) = a.1 - b.1 := by
    rw [natCast_of_emod hd]
    push_cast
    rfl
  have hcoprime : Nat.gcd (modP ((a.1 : Int) - b.1) p) p = 1 := by
    rw [← hdcast, ZMod.isUnit_iff_coprime] at hunit
    exact hunit
  obtain ⟨e, sl, cx, cy, -, hinverse, -, hsl, hcxlt, hcx, hcylt, hcy, hchord⟩ :=
    chord_of_coprime hp hwidth (modP_lt _ hpos) hd hcoprime
  have hinverse := natCast_eq_one_of_mod hinverse
  have hsl := natCast_of_emod hsl
  have hcx := natCast_of_emod hcx
  have hcy := natCast_of_emod hcy
  push_cast [hdcast] at hinverse hsl hcx hcy
  refine ⟨sl, (cx, cy), ?_, ⟨hcxlt, hcylt, by rw [hcx, sq], hcy⟩, hchord⟩
  linear_combination (a.1 - b.1 : ZMod p) * hsl + (a.2 - b.2 : ZMod p) * hinverse

/-- A tangent with an invertible denominator. -/
theorem dbl_lineSum {ca : Nat} (hunit : IsUnit (2 * a.2 : ZMod p)) :
    ∃ (sl : ZMod p) (c : Point), sl * (2 * a.2) = 3 * a.1 ^ 2 + ca ∧ LineSum p a a sl c ∧ dbl p ca a = .ok c := by
  have : Fact (1 < p) := ⟨hp⟩
  have hy : a.2 ≠ 0 := fun hzero => by simp [hzero] at hunit
  have hdcast : ((2 * a.2 % p : Nat) : ZMod p) = 2 * a.2 := by rw [ZMod.natCast_mod, Nat.cast_mul, Nat.cast_two]
  have hcoprime : Nat.gcd (2 * a.2 % p) p = 1 := by
    rw [← hdcast, ZMod.isUnit_iff_coprime] at hunit
    exact hunit
  obtain ⟨e, sl, x2, y2, -, hinverse, hsl, hx2lt, hx2, hy2lt, hy2, hdbl⟩ :=
    dbl_of_coprime (ca := ca) hp hwidth hy hcoprime
  have hinverse := natCast_eq_one_of_mod hinverse
  have hsl : (sl : ZMod p) = (3 * a.1 * a.1 + ca) * e := by rw [hsl, ZMod.natCast_mod]; push_cast; rfl
  have hx2 := natCast_of_emod hx2
  have hy2 := natCast_of_emod hy2
  rw [Nat.cast_mul, hdcast] at hinverse
  push_cast at hx2 hy2
  refine ⟨sl, (x2, y2), ?_, ⟨hx2lt, hy2lt, by rw [hx2]; ring, hy2⟩, hdbl⟩
  linear_combination (2 * a.2 : ZMod p) * hsl + (3 * a.1 ^ 2 + ca : ZMod p) * hinverse

omit hwidth in
/-- Without an inverse of its denominator a chord is an error. -/
theorem chord_of_not_isUnit (hunit : ¬ IsUnit (a.1 - b.1 : ZMod p)) : chord p a b = .error .notInvertible := by
  have hd := modP_cast ((a.1 : Int) - b.1) (by omega : 0 < p)
  refine chord_of_not_coprime hd fun hcoprime => hunit ?_
  have hdunit := (ZMod.isUnit_iff_coprime _ p).mpr hcoprime
  rw [natCast_of_emod hd] at hdunit
  push_cast at hdunit
  exact hdunit

/-- The chord is the line through both points, or neither order has one. -/
theorem chord_comm : chord p a b = chord p b a := by
  by_cases hunit : IsUnit (a.1 - b.1 : ZMod p)
  · obtain ⟨sl, c, hsl, hsum, hchord⟩ := chord_lineSum hp hwidth hunit
    obtain ⟨sl', c', hsl', hsum', hchord'⟩ := chord_lineSum hp hwidth (a := b) (b := a) (by rwa [← IsUnit.neg_iff, neg_sub])
    have hslope : sl' = sl := hunit.mul_right_cancel (by linear_combination -hsl' - hsl)
    rw [hchord, hchord', (hsum.symm hsl).unique (hslope ▸ hsum')]
  · rw [chord_of_not_isUnit hp hunit, chord_of_not_isUnit hp (by rwa [← IsUnit.neg_iff, neg_sub])]

/-- PADD's point does not depend on the order of its two points (R294). -/
theorem addPoint_comm (ca : Nat) : addPoint p ca a b = addPoint p ca b a := by
  by_cases ha : a = (0, 0)
  · rw [addPoint_infinity_left ha, addPoint_infinity_right ha]
  by_cases hb : b = (0, 0)
  · rw [addPoint_infinity_left hb, addPoint_infinity_right hb]
  by_cases hx : a.1 = b.1
  case neg => rw [addPoint_of_x_ne ha hb hx, addPoint_of_x_ne hb ha (Ne.symm hx), chord_comm hp hwidth]
  by_cases hy : (a.2 + b.2) % p = 0
  · rw [addPoint_of_opposite ha hb hx hy, addPoint_of_opposite hb ha hx.symm (add_comm a.2 b.2 ▸ hy)]
  by_cases heq : a.2 = b.2
  · rw [Prod.ext hx heq]
  · rw [addPoint_of_y_ne ha hb hx hy heq, addPoint_of_y_ne hb ha hx.symm (add_comm a.2 b.2 ▸ hy) (Ne.symm heq)]

end

/-! ### Completion of one result in two states (R146) -/

theorem x_writeRegs_congr {s s' : State} (h : s'.x = s.x) (ws : List (Reg × Word128)) :
    (s'.writeRegs ws).x = (s.writeRegs ws).x := by
  induction ws generalizing s s' with
  | nil => exact h
  | cons rv ws ih => exact ih (by rw [setReg_x, setReg_x, h])

/-- The register file and the error after a completion come from the register file before it and the result. -/
theorem complete_congr {s s' : State} (h : s'.x = s.x) (result : Result) :
    (s'.complete result).x = (s.complete result).x ∧ (s'.complete result).err = (s.complete result).err ∧
      (s'.complete result).errCode = (s.complete result).errCode := by
  cases result with
  | error c => exact ⟨h, rfl, rfl⟩
  | ok e => exact ⟨by rw [State.complete, State.complete, x_completeOk, x_completeOk, x_writeRegs_congr h], rfl, rfl⟩

/-! ### The statements -/

/-- Settles O53: the checks and the point are the same in either order, and so the whole result is. -/
theorem paddSymmetric : Obligations.PaddSymmetric := by
  intro s s' rd rs1 rs2 h h' hx hp hcurveA
  have hreg : ∀ r, s'.reg r = s.reg r := reg_congr hx
  suffices hresult : ∃ result, exec (.padd rd rs1 rs2) s = .next (s.complete result) ∧
      exec (.padd rd rs2 rs1) s' = .next (s'.complete result) by
    obtain ⟨result, hexec, hexec'⟩ := hresult
    exact ⟨_, _, hexec, hexec', complete_congr hx result⟩
  cases hnorm : s.p.getLsbD 127 with
  | false =>
    exact ⟨.error .modNotNormalized, exec_padd_of_not_normalized h hnorm, exec_padd_of_not_normalized h' (hp ▸ hnorm)⟩
  | true =>
    have hrange : s'.AdditionInRange rs2 rs1 ↔ s.AdditionInRange rs1 rs2 := by
      simp only [State.AdditionInRange, hreg, hp, hcurveA]
      tauto
    have hpoint (r : Reg) : s'.point r = s.point r := by rw [State.point, State.point, hreg, hreg]
    refine ⟨_, exec_padd_of_serves h, ?_⟩
    rw [exec_padd_of_serves h', decide_eq_decide.mpr hrange, hp, hcurveA, hpoint, hpoint,
      addPoint_comm (one_lt_of_normalized hnorm) s.p.isLt]

/-- Settles O54: the identity and the opposite are cases of `addPoint`, and so is doubling but where y is its own opposite, which
modulo an odd P is 0. -/
theorem pointLaws : Obligations.PointLaws := by
  intro p ca a _ _ hodd hx hy
  have hpos : 0 < p := by omega
  refine ⟨addPoint_infinity_right rfl, addPoint_infinity_left rfl, ?_, ?_⟩
  · have hsum : (a.2 + (p - a.2) % p) % p = 0 := by
      rw [Nat.add_mod_mod, Nat.add_sub_cancel' hy.le, Nat.mod_self]
    by_cases ha : a = (0, 0)
    · rw [addPoint_infinity_left ha, ha, Nat.sub_zero, Nat.mod_self]
    · refine addPoint_of_opposite ha (fun hb => ha ?_) rfl hsum
      obtain ⟨hx0, hy0⟩ := Prod.mk.inj hb
      rw [hy0, Nat.add_zero, Nat.mod_eq_of_lt hy] at hsum
      exact Prod.ext hx0 hsum
  · rw [doublePoint_eq_dbl]
    by_cases ha : a = (0, 0)
    · rw [addPoint_infinity_left ha, dbl_of_y_eq_zero (congrArg Prod.snd ha), ha]
    by_cases hsum : (a.2 + a.2) % p = 0
    · rw [addPoint_of_opposite ha ha rfl hsum, dbl_of_y_eq_zero (eq_zero_of_self_opposite hodd hy hsum)]
    · rw [addPoint_of_y_eq ha ha rfl hsum rfl]

/-- Settles O52: past its checks each of the two commands completes with the point or the error. -/
theorem pointCommandsCompute : Obligations.PointCommandsCompute := by
  intro s rd rs1 rs2 hnorm hax hay hbx hby hca a b completes
  have hcompletes (r : Except ErrorCode Point) : .next (s.complete (pointResult rd r)) = completes r := by
    cases r <;> rfl
  refine ⟨fun hserves => ?_, fun hserves => ?_⟩
  · rw [← hcompletes]
    exact exec_padd_of_in_range hserves hnorm ⟨hax, hay, hbx, hby, hca⟩ rfl
  · rw [← hcompletes, doublePoint_eq_dbl]
    exact exec_pdbl_of_in_range hserves hnorm ⟨hax, hay, hca⟩ rfl

end Sys2Proof.Machine
end

section
/-! SUPPORT. Point addition over a prime P as the group law of Mathlib's Weierstrass curves; after it the statements of
spec/46_point.md about the curve (R296). -/

namespace Sys2Proof.Machine

open WeierstrassCurve.Affine (equation_iff equation_add addX addY negAddY negY slope_of_X_ne slope_of_Y_ne Y_eq_of_Y_ne)

/-! ### The curve over the field of residues (R290) -/

/-- The curve `y² = x³ + ca·x + cb` over the integers modulo `p`. -/
def curve (p ca cb : Nat) : WeierstrassCurve.Affine (ZMod p) where
  a₁ := 0
  a₂ := 0
  a₃ := 0
  a₄ := ca
  a₆ := cb

/-- A point of two residues that is infinity or satisfies the curve's equation (R290). -/
def OnCurve (p ca cb : Nat) (q : Point) : Prop :=
  q.1 < p ∧ q.2 < p ∧ (q = (0, 0) ∨ q.2 * q.2 % p = (q.1 * q.1 * q.1 + ca * q.1 + cb) % p)

/-- A point of two residues whose classes satisfy the equation of `curve`. -/
structure AffineOn (p ca cb : Nat) (q : Point) : Prop where
  x_lt : q.1 < p
  y_lt : q.2 < p
  equation : (curve p ca cb).Equation q.1 q.2

section
variable {p ca cb : Nat} {a b c q : Point}

theorem curve_equation_iff (q : Point) :
    (curve p ca cb).Equation q.1 q.2 ↔ q.2 * q.2 % p = (q.1 * q.1 * q.1 + ca * q.1 + cb) % p := by
  rw [equation_iff, ← Nat.ModEq, ← ZMod.natCast_eq_natCast_iff]
  push_cast
  simp only [curve, zero_mul, add_zero, pow_succ, pow_zero, one_mul]

/-- A point of the curve is infinity or an affine point. -/
theorem onCurve_iff (hp : 0 < p) : OnCurve p ca cb q ↔ q = (0, 0) ∨ AffineOn p ca cb q := by
  constructor
  · rintro ⟨hx, hy, hq | heq⟩
    · exact .inl hq
    · exact .inr ⟨hx, hy, (curve_equation_iff q).mpr heq⟩
  · rintro (rfl | ⟨hx, hy, heq⟩)
    · exact ⟨hp, hp, .inl rfl⟩
    · exact ⟨hx, hy, .inr ((curve_equation_iff q).mp heq)⟩

/-- With `b ≢ 0` the pair (0, 0) is free to stand for infinity (R290). -/
theorem AffineOn.ne_infinity (hcb : cb % p ≠ 0) (h : AffineOn p ca cb q) : q ≠ (0, 0) := by
  rintro rfl
  have heq := (curve_equation_iff (0, 0)).mp h.equation
  simp at heq
  exact hcb heq.symm

/-- The two coordinates of a line's sum are those of the group law (R294). -/
theorem LineSum.eq_addX_addY {sl : ZMod p} (h : LineSum p a b sl c) :
    (c.1 : ZMod p) = (curve p ca cb).addX a.1 b.1 sl ∧ (c.2 : ZMod p) = (curve p ca cb).addY a.1 b.1 a.2 sl := by
  have hx : (c.1 : ZMod p) = (curve p ca cb).addX a.1 b.1 sl := by
    rw [h.x, addX, curve]
    ring
  refine ⟨hx, ?_⟩
  rw [h.y, addY, negAddY, ← hx, negY, curve]
  ring

theorem negY_curve (x y : ZMod p) : (curve p ca cb).negY x y = -y := by
  rw [negY, curve]
  ring

end

section
variable {p ca cb : Nat} [Fact p.Prime] {a b : Point} (hwidth : p < 2 ^ 128) (hcb : cb % p ≠ 0)
  (ha : AffineOn p ca cb a) (hb : AffineOn p ca cb b)
include hcb ha hb

/-- Opposite points add to infinity. -/
theorem addPoint_of_opposite_affine (hx : (a.1 : ZMod p) = b.1) (hy : (a.2 : ZMod p) = (curve p ca cb).negY b.1 b.2) :
    addPoint p ca a b = .ok (0, 0) := by
  rw [negY_curve, natCast_eq_neg_iff] at hy
  exact addPoint_of_opposite (ha.ne_infinity hcb) (hb.ne_infinity hcb) (eq_of_natCast_eq ha.x_lt hb.x_lt hx) hy

include hwidth

/-- Points that are not opposite have a line with the slope of the group law (R294, R295): the chord, or the tangent where they
share x, since then they are equal. -/
theorem addPoint_lineSum (hne : ¬ ((a.1 : ZMod p) = b.1 ∧ (a.2 : ZMod p) = (curve p ca cb).negY b.1 b.2)) :
    ∃ c, addPoint p ca a b = .ok c ∧ LineSum p a b ((curve p ca cb).slope a.1 b.1 a.2 b.2) c := by
  have hp : 1 < p := (Fact.out : p.Prime).one_lt
  by_cases hx : (a.1 : ZMod p) = b.1
  · have hy : (a.2 : ZMod p) ≠ (curve p ca cb).negY b.1 b.2 := fun hy => hne ⟨hx, hy⟩
    have hab : a = b := Prod.ext (eq_of_natCast_eq ha.x_lt hb.x_lt hx) (eq_of_natCast_eq ha.y_lt hb.y_lt
      (Y_eq_of_Y_ne ha.equation hb.equation hx hy))
    subst hab
    have hsum : ¬ (a.2 + a.2) % p = 0 := by rwa [← natCast_eq_neg_iff, ← negY_curve (ca := ca) (cb := cb) (a.1 : ZMod p)]
    have htwo : (2 * a.2 : ZMod p) ≠ 0 := by
      rwa [two_mul, ne_eq, ← eq_neg_iff_add_eq_zero, natCast_eq_neg_iff]
    obtain ⟨sl, c, hsl, hline, hdbl⟩ := dbl_lineSum (ca := ca) hp hwidth htwo.isUnit
    have hslope : (curve p ca cb).slope a.1 a.1 a.2 a.2 = sl := by
      rw [slope_of_Y_ne rfl hy, negY_curve, sub_neg_eq_add, ← two_mul, div_eq_iff htwo, hsl, curve]
      ring
    have ha0 := ha.ne_infinity hcb
    exact ⟨c, (addPoint_of_y_eq ha0 ha0 rfl hsum rfl).trans hdbl, hslope ▸ hline⟩
  · have hdiff : (a.1 - b.1 : ZMod p) ≠ 0 := sub_ne_zero.mpr hx
    obtain ⟨sl, c, hsl, hline, hchord⟩ := chord_lineSum hp hwidth hdiff.isUnit
    have hslope : (curve p ca cb).slope a.1 b.1 a.2 b.2 = sl := by
      rw [slope_of_X_ne hx, div_eq_iff hdiff, hsl]
    have hxne : a.1 ≠ b.1 := fun heq => hx (congrArg Nat.cast heq)
    exact ⟨c, (addPoint_of_x_ne (ha.ne_infinity hcb) (hb.ne_infinity hcb) hxne).trans hchord, hslope ▸ hline⟩

/-- The sum of two affine points is a point of the curve: R294's lines meet it again. -/
theorem exists_addPoint_of_affine : ∃ c, addPoint p ca a b = .ok c ∧ OnCurve p ca cb c := by
  have hpos : 0 < p := (Fact.out : p.Prime).pos
  by_cases hopp : (a.1 : ZMod p) = b.1 ∧ (a.2 : ZMod p) = (curve p ca cb).negY b.1 b.2
  · exact ⟨_, addPoint_of_opposite_affine hcb ha hb hopp.1 hopp.2, (onCurve_iff hpos).mpr (.inl rfl)⟩
  · obtain ⟨c, hadd, hline⟩ := addPoint_lineSum hwidth hcb ha hb hopp
    obtain ⟨hx, hy⟩ := hline.eq_addX_addY (ca := ca) (cb := cb)
    have hequation := equation_add ha.equation hb.equation hopp
    rw [← hx, ← hy] at hequation
    exact ⟨c, hadd, (onCurve_iff hpos).mpr (.inr ⟨hline.x_lt, hline.y_lt, hequation⟩)⟩

end

/-! ### The group (R296) -/

/-- The pair of residues `q` stands for this element of the group of nonsingular points of the curve. -/
inductive Represents (p ca cb : Nat) (q : Point) : (curve p ca cb).Point → Prop
  | infinity (h : q = (0, 0)) : Represents p ca cb q .zero
  | affine {x y : ZMod p} (h : (curve p ca cb).Nonsingular x y) (x_lt : q.1 < p) (y_lt : q.2 < p) (hx : (q.1 : ZMod p) = x)
      (hy : (q.2 : ZMod p) = y) : Represents p ca cb q (.some x y h)

section
variable {p ca cb : Nat} {a b q q' : Point}

theorem Represents.unique {Q : (curve p ca cb).Point} (h : Represents p ca cb q Q) (h' : Represents p ca cb q' Q) :
    q = q' := by
  cases h with
  | infinity h =>
    cases h' with
    | infinity h' => rw [h, h']
  | affine h x_lt y_lt hx hy =>
    cases h' with
    | affine h' x_lt' y_lt' hx' hy' =>
      exact Prod.ext (eq_of_natCast_eq x_lt x_lt' (hx.trans hx'.symm)) (eq_of_natCast_eq y_lt y_lt' (hy.trans hy'.symm))

/-- Away from characteristic 2 the discriminant is `4·a³ + 27·b²` but for a unit. -/
theorem curve_Δ_ne_zero [Fact p.Prime] (hp : 2 < p) (hsingular : (4 * ca ^ 3 + 27 * cb ^ 2) % p ≠ 0) :
    (curve p ca cb).Δ ≠ 0 := by
  have htwo : (2 : ZMod p) ≠ 0 := by
    rw [← Nat.cast_two, ne_eq, ZMod.natCast_eq_zero_iff]
    exact Nat.not_dvd_of_pos_of_lt two_pos hp
  have hdisc : (4 * ca ^ 3 + 27 * cb ^ 2 : ZMod p) ≠ 0 := by
    rw [ne_eq, ← Nat.dvd_iff_mod_eq_zero, ← ZMod.natCast_eq_zero_iff] at hsingular
    push_cast at hsingular
    exact hsingular
  have hΔ : (curve p ca cb).Δ = -(2 ^ 4 * (4 * ca ^ 3 + 27 * cb ^ 2)) := by
    simp only [curve, WeierstrassCurve.Δ, WeierstrassCurve.b₂, WeierstrassCurve.b₄, WeierstrassCurve.b₆,
      WeierstrassCurve.b₈]
    ring
  rw [hΔ]
  exact neg_ne_zero.mpr (mul_ne_zero (pow_ne_zero 4 htwo) hdisc)

/-- On a curve that is not singular every point is one of the group. -/
theorem exists_represents (hp : 0 < p) (hΔ : (curve p ca cb).Δ ≠ 0) (h : OnCurve p ca cb q) :
    ∃ Q, Represents p ca cb q Q := by
  obtain hq | haffine := (onCurve_iff hp).mp h
  · exact ⟨_, .infinity hq⟩
  · have hnonsingular := ((curve p ca cb).equation_iff_nonsingular_of_Δ_ne_zero hΔ).mp haffine.equation
    exact ⟨_, .affine hnonsingular haffine.x_lt haffine.y_lt rfl rfl⟩

/-- PADD's point is the sum in the group (R296). -/
theorem exists_addPoint_represents [Fact p.Prime] (hwidth : p < 2 ^ 128) (hcb : cb % p ≠ 0) {A B : (curve p ca cb).Point}
    (ha : Represents p ca cb a A) (hb : Represents p ca cb b B) :
    ∃ c, addPoint p ca a b = .ok c ∧ Represents p ca cb c (A + B) := by
  cases ha with
  | infinity h => exact ⟨b, addPoint_infinity_left h, (zero_add B).symm ▸ hb⟩
  | @affine x y h x_lt y_lt hx hy =>
    subst hx hy
    have haffine : AffineOn p ca cb a := ⟨x_lt, y_lt, h.1⟩
    cases hb with
    | infinity h' =>
      refine ⟨a, addPoint_infinity_right h', ?_⟩
      rw [← WeierstrassCurve.Affine.Point.zero_def, add_zero]
      exact .affine h x_lt y_lt rfl rfl
    | @affine x' y' h' x_lt' y_lt' hx' hy' =>
      subst hx' hy'
      have haffine' : AffineOn p ca cb b := ⟨x_lt', y_lt', h'.1⟩
      by_cases hopp : (a.1 : ZMod p) = b.1 ∧ (a.2 : ZMod p) = (curve p ca cb).negY b.1 b.2
      · rw [WeierstrassCurve.Affine.Point.add_of_Y_eq hopp.1 hopp.2]
        exact ⟨_, addPoint_of_opposite_affine hcb haffine haffine' hopp.1 hopp.2, .infinity rfl⟩
      · obtain ⟨c, hadd, hline⟩ := addPoint_lineSum hwidth hcb haffine haffine' hopp
        obtain ⟨hcx, hcy⟩ := hline.eq_addX_addY (ca := ca) (cb := cb)
        rw [WeierstrassCurve.Affine.Point.add_some hopp]
        exact ⟨c, hadd, .affine _ hline.x_lt hline.y_lt hcx hcy⟩

end

/-! ### The statements -/

/-- Settles O55: infinity is the identity, opposite points add to it, and the line of two other points meets the curve again. -/
theorem paddStaysOnCurve : Obligations.PaddStaysOnCurve := by
  intro p ca cb a b hprime _ hwidth _ hcb onCurve ha hb
  have : Fact p.Prime := ⟨hprime⟩
  obtain hinfinity | haffine := (onCurve_iff hprime.pos).mp ha
  · exact ⟨b, addPoint_infinity_left hinfinity, hb⟩
  obtain hinfinity | haffine' := (onCurve_iff hprime.pos).mp hb
  · exact ⟨a, addPoint_infinity_right hinfinity, ha⟩
  exact exists_addPoint_of_affine hwidth hcb haffine haffine'

/-- Settles O56: addition is that of the group, which is associative, and a pair of residues represents one element. -/
theorem paddAssociative : Obligations.PaddAssociative := by
  intro p ca cb a b c ab bc hprime hnorm hwidth _ hcb hsingular onCurve ha hb hc hab hbc
  have : Fact p.Prime := ⟨hprime⟩
  have hΔ : (curve p ca cb).Δ ≠ 0 := curve_Δ_ne_zero (by omega) hsingular
  obtain ⟨A, hA⟩ := exists_represents hprime.pos hΔ ha
  obtain ⟨B, hB⟩ := exists_represents hprime.pos hΔ hb
  obtain ⟨C, hC⟩ := exists_represents hprime.pos hΔ hc
  obtain ⟨_, hab', hAB⟩ := exists_addPoint_represents hwidth hcb hA hB
  obtain ⟨_, hbc', hBC⟩ := exists_addPoint_represents hwidth hcb hB hC
  cases hab.symm.trans hab'
  cases hbc.symm.trans hbc'
  obtain ⟨d, hd, hleft⟩ := exists_addPoint_represents hwidth hcb hAB hC
  obtain ⟨d', hd', hright⟩ := exists_addPoint_represents hwidth hcb hA hBC
  rw [← add_assoc] at hright
  rw [hright.unique hleft] at hd'
  exact ⟨d, hd, hd'⟩

end Sys2Proof.Machine
end
